-- ==== Sys2Proof/Word.lean ====
section
/-! DEFINITION. The fixed widths of the block (00_scope.md R9): words, symbols, groups, counts, offsets, bit sequences. -/

namespace Sys2Proof

/-- A register, a bus word or a command word: 32 bits (R9). -/
abbrev Word := BitVec 32

/-- A symbol on the ports: an 8-bit code (R9, R60). -/
abbrev Symbol := BitVec 8

/-- A bit group read as its alphabet index: 6 bits (R9, R54). -/
abbrev Group := BitVec 6

/-- The field of a command that holds a bit count W, LA or LB: 6 bits, legal from 0 to 32 (R53, R54). -/
abbrev BitCount := BitVec 6

/-- The fields N and K of LOAD and the registers AN and AK: 10 bits (R14, R53). -/
abbrev LfsrIndex := BitVec 10

/-- The port's `addr[11:2]`: the offset of a register counted in words (R37). -/
abbrev WordOffset := BitVec 10

/-- A byte offset in the 4 KiB register window: 12 bits (R14, R38). -/
abbrev ByteOffset := BitVec 12

/-- An ordered bit sequence, first element first (R11). -/
abbrev BitSeq := List Bool

end Sys2Proof
end

