-- ==== Sys2Proof/Syntax.lean ====
section
/-! DEFINITION. The 18 commands as terms (30_encoding.md R53, R55), the rows and formats of the opcode map, and the reasons a word is
illegal (R56). -/

namespace Sys2Proof

/-- One constructor per row of the opcode map (R55), with the operand fields of its format (R53). -/
inductive Instr where
  | nop
  | clrerr
  | softreset
  | load (n k : LfsrIndex)
  | step
  | gen (w : BitCount)
  | s2b (sym : Symbol)
  | b2s (grp : Group)
  | i2b (w : BitCount)
  | spush (sym : Symbol)
  | spop
  | bpush (w : BitCount)
  | bpop (w : BitCount)
  | sclr
  | schk
  | sxor
  | xor (la lb : BitCount)
  | crypt (sym : Symbol)
deriving DecidableEq, Repr

/-- The six formats (R53). -/
inductive Format where
  | z
  | s
  | g
  | w
  | l
  | x
deriving DecidableEq, Repr

/-- The rows of the opcode map (R55), named by their mnemonics. -/
inductive Row where
  | nop
  | clrerr
  | softreset
  | load
  | step
  | gen
  | s2b
  | b2s
  | i2b
  | spush
  | spop
  | bpush
  | bpop
  | sclr
  | schk
  | sxor
  | xor
  | crypt
deriving DecidableEq, Repr

/-- Why a word decodes to `Illegal` (R56, R57). All three run alike: IllegalCommand. -/
inductive IllegalWord where
  /-- No row has this opcode. -/
  | noRow (opc : BitVec 8)
  /-- A reserved bit of the row's format is 1. -/
  | reservedBit (row : Row)
  /-- W, LA or LB is above 32. -/
  | countAbove32 (row : Row)
deriving DecidableEq, Repr

end Sys2Proof
end

