-- ==== Sys2Proof/WellFormed.lean ====
section
/-! DEFINITION. Which command terms have an encoding (30_encoding.md R54, R55): bit counts W, LA and LB are legal from 0 to 32; every
other field takes every value of its width. A term that is not well formed has no word, and no step runs it (log 8). -/

namespace Sys2Proof

/-- A bit count is legal from 0 to 32 (R54). -/
def countOk (w : BitCount) : Bool := decide (w.toNat ≤ 32)

/-- The constraint column of the opcode map (R55). -/
def Instr.wellFormed : Instr → Bool
  | .nop => true
  | .clrerr => true
  | .softreset => true
  | .load _ _ => true
  | .step => true
  | .gen w => countOk w
  | .s2b _ => true
  | .b2s _ => true
  | .i2b w => countOk w
  | .spush _ => true
  | .spop => true
  | .bpush w => countOk w
  | .bpop w => countOk w
  | .sclr => true
  | .schk => true
  | .sxor => true
  | .xor la lb => countOk la && countOk lb
  | .crypt _ => true

end Sys2Proof
end

