-- ==== Sys2Proof/Decode.lean ====
section
/-! DEFINITION. The opcode map and formats (30_encoding.md R53, R55), the decoder of command words (R56, total on every word), the
encoder, and the host's entry into the decoder. -/

namespace Sys2Proof

/-! ## The opcode map -/

/-- The rows in the order of the opcode map. -/
def Row.all : List Row :=
  [.nop, .clrerr, .softreset, .load, .step, .gen, .s2b, .b2s, .i2b, .spush, .spop, .bpush, .bpop, .sclr, .schk, .sxor, .xor,
   .crypt]

/-- The column OPC (R55). -/
def Row.opc : Row → BitVec 8
  | .nop => 0x00#8
  | .clrerr => 0x01#8
  | .softreset => 0x02#8
  | .load => 0x10#8
  | .step => 0x11#8
  | .gen => 0x12#8
  | .s2b => 0x20#8
  | .b2s => 0x21#8
  | .i2b => 0x22#8
  | .spush => 0x30#8
  | .spop => 0x31#8
  | .bpush => 0x32#8
  | .bpop => 0x33#8
  | .sclr => 0x34#8
  | .schk => 0x35#8
  | .sxor => 0x36#8
  | .xor => 0x40#8
  | .crypt => 0x41#8

/-- The column format (R55). -/
def Row.format : Row → Format
  | .nop => .z
  | .clrerr => .z
  | .softreset => .z
  | .load => .l
  | .step => .z
  | .gen => .w
  | .s2b => .s
  | .b2s => .g
  | .i2b => .w
  | .spush => .s
  | .spop => .z
  | .bpush => .w
  | .bpop => .w
  | .sclr => .z
  | .schk => .z
  | .sxor => .z
  | .xor => .x
  | .crypt => .s

/-- The columns match and mask (R55). -/
def Row.matchMask : Row → Word × Word
  | .nop => (0x00000000#32, 0xFFFFFFFF#32)
  | .clrerr => (0x01000000#32, 0xFFFFFFFF#32)
  | .softreset => (0x02000000#32, 0xFFFFFFFF#32)
  | .load => (0x10000000#32, 0xFFF00000#32)
  | .step => (0x11000000#32, 0xFFFFFFFF#32)
  | .gen => (0x12000000#32, 0xFFFFFFC0#32)
  | .s2b => (0x20000000#32, 0xFFFFFF00#32)
  | .b2s => (0x21000000#32, 0xFFFFFFC0#32)
  | .i2b => (0x22000000#32, 0xFFFFFFC0#32)
  | .spush => (0x30000000#32, 0xFFFFFF00#32)
  | .spop => (0x31000000#32, 0xFFFFFFFF#32)
  | .bpush => (0x32000000#32, 0xFFFFFFC0#32)
  | .bpop => (0x33000000#32, 0xFFFFFFC0#32)
  | .sclr => (0x34000000#32, 0xFFFFFFFF#32)
  | .schk => (0x35000000#32, 0xFFFFFFFF#32)
  | .sxor => (0x36000000#32, 0xFFFFFFFF#32)
  | .xor => (0x40000000#32, 0xFFFFF000#32)
  | .crypt => (0x41000000#32, 0xFFFFFF00#32)

/-- The row with a given opcode, if there is one. -/
def Row.ofOpc (opc : BitVec 8) : Option Row := Row.all.find? fun r => r.opc = opc

/-- A format's operand fields fill the bits below this one; the bits from it up to 23 are reserved (R53). -/
def Format.operandBits : Format → Nat
  | .z => 0
  | .s => 8
  | .g => 6
  | .w => 6
  | .l => 20
  | .x => 12

/-! ## Fields of a command word (R52, R53) -/

/-- OPC = word[31:24]. -/
def opcField (v : Word) : BitVec 8 := v.extractLsb' 24 8

/-- The reserved bits of a format, word[23:operandBits], as an unsigned value. -/
def reservedField (f : Format) (v : Word) : Nat := (v.extractLsb' f.operandBits (24 - f.operandBits)).toNat

/-- SYM = word[7:0]. -/
def symField (v : Word) : Symbol := v.extractLsb' 0 8

/-- GRP = word[5:0]. -/
def grpField (v : Word) : Group := v.extractLsb' 0 6

/-- W = word[5:0], and LA of format X. -/
def countField (v : Word) : BitCount := v.extractLsb' 0 6

/-- LB = word[11:6]. -/
def countBField (v : Word) : BitCount := v.extractLsb' 6 6

/-- N = word[9:0]. -/
def nField (v : Word) : LfsrIndex := v.extractLsb' 0 10

/-- K = word[19:10]. -/
def kField (v : Word) : LfsrIndex := v.extractLsb' 10 10

/-! ## The decoder (R56) -/

/-- The row's command with its fields taken from the word. -/
def Row.build (v : Word) : Row → Instr
  | .nop => .nop
  | .clrerr => .clrerr
  | .softreset => .softreset
  | .load => .load (nField v) (kField v)
  | .step => .step
  | .gen => .gen (countField v)
  | .s2b => .s2b (symField v)
  | .b2s => .b2s (grpField v)
  | .i2b => .i2b (countField v)
  | .spush => .spush (symField v)
  | .spop => .spop
  | .bpush => .bpush (countField v)
  | .bpop => .bpop (countField v)
  | .sclr => .sclr
  | .schk => .schk
  | .sxor => .sxor
  | .xor => .xor (countField v) (countBField v)
  | .crypt => .crypt (symField v)

/-- The command a word stands for, or why it is Illegal (R56): no row, a reserved bit, a count above 32, in this order. -/
def decode (v : Word) : Except IllegalWord Instr :=
  match Row.ofOpc (opcField v) with
  | none => .error (.noRow (opcField v))
  | some r =>
    if reservedField r.format v ≠ 0 then .error (.reservedBit r)
    else if (r.build v).wellFormed then .ok (r.build v)
    else .error (.countAbove32 r)

/-! ## The encoder (R53, R55) -/

/-- Format Z: the opcode and 24 zero bits. -/
def zWord (opc : BitVec 8) : Word := opc ++ 0#24

/-- Format S: SYM in [7:0]. -/
def sWord (opc : BitVec 8) (sym : Symbol) : Word := opc ++ 0#16 ++ sym

/-- Format G: GRP in [5:0]. -/
def gWord (opc : BitVec 8) (grp : Group) : Word := opc ++ 0#18 ++ grp

/-- Format W: W in [5:0]. -/
def wWord (opc : BitVec 8) (w : BitCount) : Word := opc ++ 0#18 ++ w

/-- Format L: K in [19:10], N in [9:0]. -/
def lWord (opc : BitVec 8) (n k : LfsrIndex) : Word := opc ++ 0#4 ++ k ++ n

/-- Format X: LB in [11:6], LA in [5:0]. -/
def xWord (opc : BitVec 8) (la lb : BitCount) : Word := opc ++ 0#12 ++ lb ++ la

/-- The command word of a command: its row's opcode, its fields in its format's places, every reserved bit 0. -/
def encode : Instr → Word
  | .nop => zWord Row.nop.opc
  | .clrerr => zWord Row.clrerr.opc
  | .softreset => zWord Row.softreset.opc
  | .load n k => lWord Row.load.opc n k
  | .step => zWord Row.step.opc
  | .gen w => wWord Row.gen.opc w
  | .s2b sym => sWord Row.s2b.opc sym
  | .b2s grp => gWord Row.b2s.opc grp
  | .i2b w => wWord Row.i2b.opc w
  | .spush sym => sWord Row.spush.opc sym
  | .spop => zWord Row.spop.opc
  | .bpush w => wWord Row.bpush.opc w
  | .bpop w => wWord Row.bpop.opc w
  | .sclr => zWord Row.sclr.opc
  | .schk => zWord Row.schk.opc
  | .sxor => zWord Row.sxor.opc
  | .xor la lb => xWord Row.xor.opc la lb
  | .crypt sym => sWord Row.crypt.opc sym

/-- The row a command belongs to. -/
def Instr.row : Instr → Row
  | .nop => .nop
  | .clrerr => .clrerr
  | .softreset => .softreset
  | .load _ _ => .load
  | .step => .step
  | .gen _ => .gen
  | .s2b _ => .s2b
  | .b2s _ => .b2s
  | .i2b _ => .i2b
  | .spush _ => .spush
  | .spop => .spop
  | .bpush _ => .bpush
  | .bpop _ => .bpop
  | .sclr => .sclr
  | .schk => .schk
  | .sxor => .sxor
  | .xor _ _ => .xor
  | .crypt _ => .crypt

/-! ## The host's entry -/

/-- The command word whose low `nbits` bits are those of `w` and whose other bits are 0: the opcode table numbers a word's bits as
the spec does (R10, R52), and a command is one word. -/
def tableWord (nbits w : Nat) : Word := BitVec.ofNat 32 (w % 2 ^ nbits)

/-- The command this decoder reads from an opcode-table word. A number that does not fit one 32-bit word is no command word. -/
def decodeTableWord (nbits w : Nat) : Option Instr :=
  if w % 2 ^ nbits < 2 ^ 32 then (decode (tableWord nbits w)).toOption else none

end Sys2Proof
end

