-- ==== Sys2Proof/Config.lean ====
section
/-! DEFINITION. What an instance of the block fixes (00_scope.md R6 to R8, 20_memory.md R38) and the free values of what the spec
leaves open. -/

namespace Sys2Proof

/-- The five lengths NMAX may have (R7). -/
inductive NMax where
  | n32
  | n64
  | n128
  | n256
  | n512
deriving DecidableEq, Repr

/-- NMAX in bits (R7). -/
def NMax.bits : NMax → Nat
  | .n32 => 32
  | .n64 => 64
  | .n128 => 128
  | .n256 => 256
  | .n512 => 512

/-- The parameters of one instance (R6, R7, R8). Every value is a legal instance: NMAX is one of the five lengths, and BSMAX is
`36 + 6 * extraGroups`, which runs over the multiples of 6 from 36 to 65532. -/
structure Params where
  nmaxSel     : NMax
  extraGroups : Fin 10917
deriving DecidableEq, Repr

/-- NMAX: the largest LFSR length, and the width of SEED and ST (R7). -/
def Params.nmax (p : Params) : Nat := p.nmaxSel.bits

/-- BSMAX: the capacity of the stream buffer in bits (R8). -/
def Params.bsmax (p : Params) : Nat := 36 + 6 * p.extraGroups.val

/-- How many 32-bit words SEED and ST have (R31, R32). -/
def Params.seedWords (p : Params) : Nat := p.nmax / 32

/-- The spec's defaults, NMAX = 64 and BSMAX = 384 (R7, R8). -/
def Params.default : Params := { nmaxSel := .n64, extraGroups := 58 }

namespace Config

/-- The constant that ID reads as (R20). -/
def idWord : Word := 0x4C360100#32

/-- FREE VALUE (log 5): the n-th value that a read the spec leaves open returns, "any 32-bit value, chosen afresh at each read"
(R110), "any value" (R107). It has no body a proof could use. -/
opaque freeRead : Nat → Word

/-- BASE, the address at which a platform places the register window (R38, P1): OPEN, and no rule reads it (log 13). -/
opaque windowBase : Nat

/-- The address, in the host's own address space, of the register at word offset `a` (R38). -/
def hostAddress (a : WordOffset) : Nat := windowBase + 4 * a.toNat

end Config
end Sys2Proof
end

