-- ==== Sys2Proof/Machine/State.lean ====
section
/-! DEFINITION. The state of the block (10_state.md R14), its events, its error kinds (60_exceptions.md R97), the reasons a step can
stop (there are none), and the state after reset (R36). -/

namespace Sys2Proof.Machine

/-- The error kinds (R97), one per code from 1 to 11. -/
inductive ErrorKind where
  /-- The word written to CMD decodes to Illegal. -/
  | illegalCommand
  /-- SYM is not an alphabet code. -/
  | invalidSymbol
  /-- The buffer holds fewer bits than a pop needs, or a length that is not a multiple of 6 at SCHK. -/
  | invalidBitGroupLength
  /-- DIN >= 2^W with W < 32. -/
  | overflow
  /-- LA != LB. -/
  | lengthMismatch
  /-- N = 0. -/
  | emptySeed
  /-- K >= N. -/
  | tapOutOfRange
  /-- N > NMAX. -/
  | seedTooLong
  /-- A keystream command with SEEDED = 0. -/
  | notSeeded
  /-- A push would make len(BS) > BSMAX. -/
  | streamFull
  /-- A host write while BUSY = 1. -/
  | cmdOverrun
deriving DecidableEq, Repr

/-- The error record: ERR, ECODE, EOFF, ECMD (R14, R24, R25). -/
structure ErrorRecord where
  err   : Bool
  ecode : BitVec 4
  eoff  : ByteOffset
  ecmd  : Word
deriving DecidableEq, Repr

/-- No error recorded: the record's reset value (R36) and what CLRERR leaves (R95). -/
def ErrorRecord.none : ErrorRecord := { err := false, ecode := 0#4, eoff := 0#12, ecmd := 0#32 }

/-- The keystream generator of a block with NMAX = w: ST, AN, AK, SEEDED, KSCOUNT (R14, R26, R27, R32). -/
structure Lfsr (w : Nat) where
  st      : BitVec w
  an      : LfsrIndex
  ak      : LfsrIndex
  seeded  : Bool
  kscount : Word
deriving DecidableEq, Repr

/-- The generator after reset (R36). -/
def Lfsr.zero (w : Nat) : Lfsr w := { st := 0#w, an := 0#10, ak := 0#10, seeded := false, kscount := 0#32 }

/-- One host access: a whole 32-bit word at a word offset (R39). -/
inductive Access where
  | read (a : WordOffset)
  | write (a : WordOffset) (v : Word)
deriving DecidableEq, Repr

/-- What can happen to the block next. -/
inductive Event where
  /-- The host makes an access (R5). -/
  | access (a : Access)
  /-- The sequencer takes its completion step, if a command is in flight (R5, R109). -/
  | complete
  /-- A rising clock edge with rst = 1, and the access presented with it, if any (R107). -/
  | rst (presented : Option Access)
deriving DecidableEq, Repr

/-- The state. The fields seed to error are R14's, exactly; params is the instance (R6); pending, reads and draws are the model's
own (logs 2, 4, 5). -/
structure State where
  /-- NMAX and BSMAX of this instance; no step changes it (log 1). -/
  params  : Params
  /-- SEED (R31). -/
  seed    : BitVec params.nmax
  /-- ST, AN, AK, SEEDED, KSCOUNT. -/
  lfsr    : Lfsr params.nmax
  /-- BS, the oldest bit first (R33). -/
  bs      : BitSeq
  /-- DIN (R28). -/
  din     : Word
  /-- DINB (R28). -/
  dinb    : Word
  /-- DOUT (R29). -/
  dout    : Word
  /-- BUSY (R23, R109). -/
  busy    : Bool
  /-- ERR, ECODE, EOFF, ECMD. -/
  error   : ErrorRecord
  /-- The model's own: the events still to come, the next one first (log 2). -/
  pending : List Event
  /-- The model's own: the values the host's reads returned, the oldest first (R118, log 4). -/
  reads   : List Word
  /-- The model's own: how many free values have been drawn (log 5). -/
  draws   : Nat
deriving DecidableEq, Repr

/-- Why a step stops with a fault: never. The port has no error response (R37), every word offset has its behaviour (R19, R40, R41),
and an error is a record, not a stop (R98). No constructor, so nothing raises one. -/
inductive Fault where
deriving DecidableEq, Repr

/-- Why a step is refused: never. -/
inductive Refusal where
  /-- The host's form for a command with no meaning yet. No arm of exec raises it; raising it would be safe. -/
  | notModelled (mnemonic : String)
deriving DecidableEq, Repr

/-- The state of an instance right after reset (R36), with nothing placed for it to do. -/
def State.resetOf (p : Params) : State :=
  { params := p, seed := 0#_, lfsr := Lfsr.zero _, bs := [], din := 0#32, dinb := 0#32, dout := 0#32, busy := false,
    error := ErrorRecord.none, pending := [], reads := [], draws := 0 }

/-- The state right after reset of the instance with the spec's default parameters (R36, R7, R8, log 1). -/
def State.reset : State := State.resetOf Params.default

end Sys2Proof.Machine
end

