-- ==== Sys2Proof/Machine/Operands.lean ====
section
/-! DEFINITION. Operand forms: bit sequences and values (00_scope.md R11), the alphabet tables (40_codec.md R60 to R62), bit-count
checks (R66, R70), and the 32-bit windows on SEED and ST (10_state.md R31, R32). -/

namespace Sys2Proof.Machine

/-! ## Values and bit sequences, most significant bit first (R11, R44) -/

/-- `seqMSB(v, w) = [v[w-1], ..., v[0]]` (R11). -/
def seqMSB (v : Nat) : Nat → BitSeq
  | 0 => []
  | w + 1 => v.testBit w :: seqMSB v w

/-- `valMSB(s)`, the sum of `s[i] * 2^(len(s)-1-i)` (R11). -/
def valMSB : BitSeq → Nat
  | [] => 0
  | b :: s => b.toNat * 2 ^ s.length + valMSB s

/-- The bits of two sequences of one length, combined one by one (R85, R86). -/
def xorSeq (a b : BitSeq) : BitSeq := List.zipWith Bool.xor a b

/-- The value `2^la - 1` that keeps the low la bits (R85). -/
def lowMask (la : Nat) : Word := BitVec.ofNat 32 (2 ^ la - 1)

/-- `W < 32 and DIN >= 2^W`, the condition of Overflow (R66, R70). -/
def overflows (w : BitCount) (din : Word) : Bool := decide (w.toNat < 32 ∧ 2 ^ w.toNat ≤ din.toNat)

/-! ## The alphabet tables (R60 to R62) -/

/-- The column code of the alphabet table (R60), index 0 first. -/
def alphabet : List Symbol :=
  [0x41#8, 0x42#8, 0x43#8, 0x44#8, 0x45#8, 0x46#8, 0x47#8, 0x48#8, 0x49#8, 0x4A#8, 0x4B#8, 0x4C#8, 0x4D#8] ++
  [0x4E#8, 0x4F#8, 0x50#8, 0x51#8, 0x52#8, 0x53#8, 0x54#8, 0x55#8, 0x56#8, 0x57#8, 0x58#8, 0x59#8, 0x5A#8] ++
  [0x61#8, 0x62#8, 0x63#8, 0x64#8, 0x65#8, 0x66#8, 0x67#8, 0x68#8, 0x69#8, 0x6A#8, 0x6B#8, 0x6C#8, 0x6D#8] ++
  [0x6E#8, 0x6F#8, 0x70#8, 0x71#8, 0x72#8, 0x73#8, 0x74#8, 0x75#8, 0x76#8, 0x77#8, 0x78#8, 0x79#8, 0x7A#8] ++
  [0x30#8, 0x31#8, 0x32#8, 0x33#8, 0x34#8, 0x35#8, 0x36#8, 0x37#8, 0x38#8, 0x39#8, 0x2B#8, 0x2F#8]

/-- `I2S(g)`, the code of row g of the alphabet table (R62). -/
def i2s (g : Group) : Symbol := alphabet.getD g.toNat 0#8

/-- `S2I(c)`, in the form of R61; `none` is `Invalid`. -/
def s2i (c : Symbol) : Option Group :=
  let n := c.toNat
  if 0x41 ≤ n ∧ n ≤ 0x5A then some (BitVec.ofNat 6 (n - 0x41))
  else if 0x61 ≤ n ∧ n ≤ 0x7A then some (BitVec.ofNat 6 (n - 0x61 + 26))
  else if 0x30 ≤ n ∧ n ≤ 0x39 then some (BitVec.ofNat 6 (n - 0x30 + 52))
  else if n = 0x2B then some 62#6
  else if n = 0x2F then some 63#6
  else none

/-! ## The 32-bit windows on an NMAX-bit register (R31, R32, R45) -/

/-- Word j of a register: its bits 32j+31 to 32j. -/
def getWord {w : Nat} (r : BitVec w) (j : Nat) : Word := r.extractLsb' (32 * j) 32

/-- The register with word j written and every other bit kept. -/
def setWord {w : Nat} (r : BitVec w) (j : Nat) (v : Word) : BitVec w :=
  (r &&& ~~~((0xFFFFFFFF#32).setWidth w <<< (32 * j))) ||| (v.setWidth w <<< (32 * j))

/-- The low n bits of a register, with 0 at and above n (R77: `SEED[i] if i < N else 0`). -/
def lowBits {w : Nat} (n : Nat) (r : BitVec w) : BitVec w := (r.setWidth n).setWidth w

end Sys2Proof.Machine
end

