-- ==== Sys2Proof/Machine/Flags.lean ====
section
/-! DEFINITION. The status flags (10_state.md R17, R23), the error codes (60_exceptions.md R97), and the register words that show
them (R24, R26, R30). -/

namespace Sys2Proof.Machine

/-- The error codes 1 to 11 (R97). -/
def ErrorKind.code : ErrorKind → BitVec 4
  | .illegalCommand => 1#4
  | .invalidSymbol => 2#4
  | .invalidBitGroupLength => 3#4
  | .overflow => 4#4
  | .lengthMismatch => 5#4
  | .emptySeed => 6#4
  | .tapOutOfRange => 7#4
  | .seedTooLong => 8#4
  | .notSeeded => 9#4
  | .streamFull => 10#4
  | .cmdOverrun => 11#4

/-- DEGEN reads `SEEDED and (AK == AN - 1)` (R23), a function of other state. With AN = 0, which no seeded state has (R35), the
difference of naturals is 0 (log 9). -/
def degen {w : Nat} (l : Lfsr w) : Bool := l.seeded && decide (l.ak.toNat = l.an.toNat - 1)

/-- The word STATUS reads as while BUSY = 0, and its bits while BUSY = 1 but for those R110 leaves open: DEGEN, SEEDED, ERR, BUSY in
[3:0], [31:4] reserved (R23). -/
def statusWord (s : State) : Word :=
  0#28 ++ BitVec.ofBool (degen s.lfsr) ++ BitVec.ofBool s.lfsr.seeded ++ BitVec.ofBool s.error.err ++ BitVec.ofBool s.busy

/-- The word ERRCODE reads as: CODE in [3:0], OFFSET in [27:16], the rest reserved (R24). -/
def errcodeWord (e : ErrorRecord) : Word := 0#4 ++ e.eoff ++ 0#12 ++ e.ecode

/-- The word ACTIVE reads as: AN in [9:0], AK in [25:16], the rest reserved (R26). -/
def activeWord {w : Nat} (l : Lfsr w) : Word := 0#6 ++ l.ak ++ 0#6 ++ l.an

/-- The word BSCOUNT reads as: COUNT in [15:0], the rest reserved (R30). -/
def bscountWord (bs : BitSeq) : Word := 0#16 ++ BitVec.ofNat 16 bs.length

/-- The word CFG reads as: NMAX in [15:0], BSMAX in [31:16] (R21). -/
def cfgWord (p : Params) : Word := BitVec.ofNat 16 p.bsmax ++ BitVec.ofNat 16 p.nmax

end Sys2Proof.Machine
end

