-- ==== Sys2Proof/Machine/Ops.lean ====
section
/-! DEFINITION. The named operations every command is written with: recording an error and clearing the record (60_exceptions.md R98,
R102), the LFSR step (42_lfsr.md R76), the updates of DOUT and BS, and the return to reset values (10_state.md R36). -/

namespace Sys2Proof.Machine

/-! ## Updates of one state element -/

/-- `BUSY <- b`. -/
def State.setBusy (b : Bool) (s : State) : State := { s with busy := b }

/-- `DOUT <- v`. -/
def State.setDout (v : Word) (s : State) : State := { s with dout := v }

/-- `BS <- bs`. -/
def State.setBs (bs : BitSeq) (s : State) : State := { s with bs := bs }

/-- The generator after a LOAD or after keystream bits were taken. -/
def State.setLfsr (s : State) (l : Lfsr s.params.nmax) : State := { s with lfsr := l }

/-- The model's own bookkeeping of a read: the value it returned is the run's next product (R118). -/
def State.logRead (v : Word) (s : State) : State := { s with reads := s.reads ++ [v] }

/-- The model's own bookkeeping of a free value: the next draw is a fresh one (R110). -/
def State.drawn (s : State) : State := { s with draws := s.draws + 1 }

/-! ## Taking an error and returning from one -/

/-- Record an error with its code, the byte offset of the host write and its data word, if none is recorded: the first record is kept
(R98, R41). -/
def State.recordError (e : ErrorKind) (off : ByteOffset) (v : Word) (s : State) : State :=
  if s.error.err then s else { s with error := { err := true, ecode := e.code, eoff := off, ecmd := v } }

/-- The byte offset of CMD (R18, R22). -/
def cmdByteOffset : ByteOffset := 0x008#12

/-- `raise E(info)` in the rule of the command with word v: record the error with the offset of CMD and the word, and end the command
with no other effect (R98, R99). -/
def raise (e : ErrorKind) (v : Word) (s : State) : Host.Outcome State Fault Refusal :=
  .next (s.recordError e cmdByteOffset v)

/-- Return from an error: the record is cleared, and with it the lock; nothing is restored, because nothing was changed
(R95, R102). -/
def State.clearError (s : State) : State := { s with error := ErrorRecord.none }

/-- Every state element but BUSY at its reset value (R36, R96). The instance and the model's own fields stay (log 11). -/
def State.clear (s : State) : State :=
  { s with seed := 0#_, lfsr := Lfsr.zero _, bs := [], din := 0#32, dinb := 0#32, dout := 0#32, error := ErrorRecord.none }

/-! ## The keystream -/

/-- `f <- ST[AN-1] xor ST[AK]`, the feedback bit, which is the emitted keystream bit (R76). -/
def Lfsr.feedback {w : Nat} (l : Lfsr w) : Bool := l.st.getLsbD (l.an.toNat - 1) ^^ l.st.getLsbD l.ak.toNat

/-- `KSBIT()`: emit the feedback bit, shift toward index 0, let it in at AN-1, count it (R76). -/
def ksBit {w : Nat} (l : Lfsr w) : Bool × Lfsr w :=
  (l.feedback,
   { l with
     st := (l.st >>> 1) ||| ((BitVec.ofBool l.feedback).setWidth w <<< (l.an.toNat - 1))
     kscount := l.kscount + 1#32 })

/-- The next n keystream bits, the first one first, and the generator after them. -/
def ksBits {w : Nat} : Nat → Lfsr w → BitSeq × Lfsr w
  | 0, l => ([], l)
  | n + 1, l =>
    let r := ksBit l
    let rs := ksBits n r.2
    (r.1 :: rs.1, rs.2)

end Sys2Proof.Machine
end

