-- ==== Sys2Proof/Machine/Cipher.lean ====
section
/-! DEFINITION. The XOR combiner and the cipher commands XOR, SXOR, CRYPT (43_xor_crypt.md R85 to R87). -/

namespace Sys2Proof.Machine

/-- SXOR (R86): XOR the whole buffer with the next len(BS) keystream bits, BS[0] with the first. -/
def execSxor (s : State) : Host.Outcome State Fault Refusal :=
  if s.lfsr.seeded then
    let r := ksBits s.bs.length s.lfsr
    .next ((s.setLfsr r.2).setBs (xorSeq s.bs r.1))
  else raise .notSeeded (encode .sxor) s

/-- XOR (R85): the low LA bits of DIN and DINB, combined. -/
def execXor (la lb : BitCount) (s : State) : Host.Outcome State Fault Refusal :=
  if la ≠ lb then raise .lengthMismatch (encode (.xor la lb)) s
  else .next (s.setDout ((s.din ^^^ s.dinb) &&& lowMask la.toNat))

/-- CRYPT (R87): a symbol's index combined with the next 6 keystream bits, as a symbol. NotSeeded is checked before InvalidSymbol. -/
def execCrypt (sym : Symbol) (s : State) : Host.Outcome State Fault Refusal :=
  if s.lfsr.seeded then
    match s2i sym with
    | none => raise .invalidSymbol (encode (.crypt sym)) s
    | some g =>
      let r := ksBits 6 s.lfsr
      .next ((s.setLfsr r.2).setDout ((i2s (g ^^^ BitVec.ofNat 6 (valMSB r.1))).setWidth 32))
  else raise .notSeeded (encode (.crypt sym)) s

end Sys2Proof.Machine
end

