-- ==== Sys2Proof/Machine/Codec.lean ====
section
/-! DEFINITION. The codec commands S2B, B2S, I2B (40_codec.md R64 to R66). -/

namespace Sys2Proof.Machine

/-- S2B (R64): symbol to bit group. -/
def execS2b (sym : Symbol) (s : State) : Host.Outcome State Fault Refusal :=
  match s2i sym with
  | none => raise .invalidSymbol (encode (.s2b sym)) s
  | some g => .next (s.setDout (g.setWidth 32))

/-- B2S (R65): bit group to symbol; total on the 6-bit field. -/
def execB2s (grp : Group) (s : State) : Host.Outcome State Fault Refusal :=
  .next (s.setDout ((i2s grp).setWidth 32))

/-- I2B (R66): the integer DIN as a W-bit group. -/
def execI2b (w : BitCount) (s : State) : Host.Outcome State Fault Refusal :=
  if overflows w s.din then raise .overflow (encode (.i2b w)) s
  else .next (s.setDout s.din)

end Sys2Proof.Machine
end

