-- ==== Sys2Proof/Machine/Control.lean ====
section
/-! DEFINITION. The control commands NOP, CLRERR, SOFTRESET (44_control.md R94 to R96). -/

namespace Sys2Proof.Machine

/-- NOP (R94): nothing. -/
def execNop (s : State) : Host.Outcome State Fault Refusal := .next s

/-- CLRERR (R95): clear the error record and leave the error lock. -/
def execClrerr (s : State) : Host.Outcome State Fault Refusal := .next s.clearError

/-- SOFTRESET (R96): every state element but BUSY to its reset value. -/
def execSoftreset (s : State) : Host.Outcome State Fault Refusal := .next s.clear

end Sys2Proof.Machine
end

