-- ==== Sys2Proof/Machine/Generator.lean ====
section
/-! DEFINITION. The LFSR commands LOAD, STEP, GEN (42_lfsr.md R77 to R79). -/

namespace Sys2Proof.Machine

/-- LOAD (R77): copy the low N bits of SEED into the working register and fix N and K. The checks in order: EmptySeed, SeedTooLong,
TapOutOfRange. -/
def execLoad (n k : LfsrIndex) (s : State) : Host.Outcome State Fault Refusal :=
  if n.toNat = 0 then raise .emptySeed (encode (.load n k)) s
  else if s.params.nmax < n.toNat then raise .seedTooLong (encode (.load n k)) s
  else if n.toNat ≤ k.toNat then raise .tapOutOfRange (encode (.load n k)) s
  else .next (s.setLfsr { st := lowBits n.toNat s.seed, an := n, ak := k, seeded := true, kscount := 0#32 })

/-- STEP (R78): one keystream bit into DOUT. -/
def execStep (s : State) : Host.Outcome State Fault Refusal :=
  if s.lfsr.seeded then
    let r := ksBit s.lfsr
    .next ((s.setLfsr r.2).setDout ((BitVec.ofBool r.1).setWidth 32))
  else raise .notSeeded (encode .step) s

/-- GEN (R79): W keystream bits packed into DOUT, the first bit most significant. -/
def execGen (w : BitCount) (s : State) : Host.Outcome State Fault Refusal :=
  if s.lfsr.seeded then
    let r := ksBits w.toNat s.lfsr
    .next ((s.setLfsr r.2).setDout (BitVec.ofNat 32 (valMSB r.1)))
  else raise .notSeeded (encode (.gen w)) s

end Sys2Proof.Machine
end

