-- ==== Sys2Proof/Machine/Stream.lean ====
section
/-! DEFINITION. The stream-buffer commands SPUSH, SPOP, BPUSH, BPOP, SCLR, SCHK (41_stream.md R68 to R73). -/

namespace Sys2Proof.Machine

/-- SPUSH (R68): append a symbol's bit group. InvalidSymbol is checked before StreamFull. -/
def execSpush (sym : Symbol) (s : State) : Host.Outcome State Fault Refusal :=
  match s2i sym with
  | none => raise .invalidSymbol (encode (.spush sym)) s
  | some g =>
    if s.params.bsmax < s.bs.length + 6 then raise .streamFull (encode (.spush sym)) s
    else .next (s.setBs (s.bs ++ seqMSB g.toNat 6))

/-- SPOP (R69): take the first bit group as a symbol. -/
def execSpop (s : State) : Host.Outcome State Fault Refusal :=
  if s.bs.length < 6 then raise .invalidBitGroupLength (encode .spop) s
  else .next ((s.setBs (s.bs.drop 6)).setDout ((i2s (BitVec.ofNat 6 (valMSB (s.bs.take 6)))).setWidth 32))

/-- BPUSH (R70): append the W-bit sequence of DIN. Overflow is checked before StreamFull. -/
def execBpush (w : BitCount) (s : State) : Host.Outcome State Fault Refusal :=
  if overflows w s.din then raise .overflow (encode (.bpush w)) s
  else if s.params.bsmax < s.bs.length + w.toNat then raise .streamFull (encode (.bpush w)) s
  else .next (s.setBs (s.bs ++ seqMSB s.din.toNat w.toNat))

/-- BPOP (R71): take the first W bits as an unsigned integer. -/
def execBpop (w : BitCount) (s : State) : Host.Outcome State Fault Refusal :=
  if s.bs.length < w.toNat then raise .invalidBitGroupLength (encode (.bpop w)) s
  else .next ((s.setBs (s.bs.drop w.toNat)).setDout (BitVec.ofNat 32 (valMSB (s.bs.take w.toNat))))

/-- SCLR (R72): empty the buffer. -/
def execSclr (s : State) : Host.Outcome State Fault Refusal := .next (s.setBs [])

/-- SCHK (R73): check that the buffer holds whole groups; DOUT is their number. -/
def execSchk (s : State) : Host.Outcome State Fault Refusal :=
  if s.bs.length % 6 ≠ 0 then raise .invalidBitGroupLength (encode .schk) s
  else .next (s.setDout (BitVec.ofNat 32 (s.bs.length / 6)))

end Sys2Proof.Machine
end

