-- ==== Sys2Proof/Machine/Dispatch.lean ====
section
/-! DEFINITION. The rule of each command (30_encoding.md R55, column semantics), one arm per constructor. -/

namespace Sys2Proof.Machine

def exec (i : Instr) (s : State) : Host.Outcome State Fault Refusal :=
  match i with
  | .nop => Sys2Proof.Machine.execNop s
  | .clrerr => Sys2Proof.Machine.execClrerr s
  | .softreset => Sys2Proof.Machine.execSoftreset s
  | .load n k => Sys2Proof.Machine.execLoad n k s
  | .step => Sys2Proof.Machine.execStep s
  | .gen w => Sys2Proof.Machine.execGen w s
  | .s2b sym => Sys2Proof.Machine.execS2b sym s
  | .b2s grp => Sys2Proof.Machine.execB2s grp s
  | .i2b w => Sys2Proof.Machine.execI2b w s
  | .spush sym => Sys2Proof.Machine.execSpush sym s
  | .spop => Sys2Proof.Machine.execSpop s
  | .bpush w => Sys2Proof.Machine.execBpush w s
  | .bpop w => Sys2Proof.Machine.execBpop w s
  | .sclr => Sys2Proof.Machine.execSclr s
  | .schk => Sys2Proof.Machine.execSchk s
  | .sxor => Sys2Proof.Machine.execSxor s
  | .xor la lb => Sys2Proof.Machine.execXor la lb s
  | .crypt sym => Sys2Proof.Machine.execCrypt sym s

end Sys2Proof.Machine
end

