-- ==== Sys2Proof/Machine/Registers.lean ====
section
/-! DEFINITION. The register map (10_state.md R18) and what a read of each register returns (20_memory.md R40, 70_reset_and_hazards.md
R110). -/

namespace Sys2Proof.Machine

/-- The registers of the map (R18); every other word offset is reserved. -/
inductive Reg where
  | id
  | cfg
  | cmd
  | status
  | errcode
  | errcmd
  | active
  | kscount
  | din
  | dinb
  | dout
  | bscount
  /-- SEEDW[j]. -/
  | seedw (j : Nat)
  /-- STATEW[j]. -/
  | statew (j : Nat)
  | reserved
deriving DecidableEq, Repr

/-- The byte offset of a word offset: the access carries addr[11:2] (R37). -/
def byteOffset (a : WordOffset) : ByteOffset := a ++ 0#2

/-- The word offset of a byte offset that is a multiple of 4. -/
def wordAt (byteOff : Nat) : WordOffset := BitVec.ofNat 10 (byteOff / 4)

/-- The registers at byte offsets 0x000 to 0x02C, in the order of the map (R18). -/
def lowRegs : List Reg :=
  [.id, .cfg, .cmd, .status, .errcode, .errcmd, .active, .kscount, .din, .dinb, .dout, .bscount]

/-- The register at word offset n above 0x02C: SEEDW from 0x100 and STATEW from 0x200, NMAX/32 words each; the rest is reserved
(R18). -/
def windowReg (p : Params) (n : Nat) : Reg :=
  if 64 ≤ n ∧ n < 64 + p.seedWords then .seedw (n - 64)
  else if 128 ≤ n ∧ n < 128 + p.seedWords then .statew (n - 128)
  else .reserved

/-- The register at a word offset (R18). -/
def regAt (p : Params) (a : WordOffset) : Reg := (lowRegs[a.toNat]?).getD (windowReg p a.toNat)

/-- The value of a register while BUSY = 0 (R20 to R32, R19, R40). -/
def readReg (s : State) : Reg → Word
  | .id => Config.idWord
  | .cfg => cfgWord s.params
  | .cmd => 0#32
  | .status => statusWord s
  | .errcode => errcodeWord s.error
  | .errcmd => s.error.ecmd
  | .active => activeWord s.lfsr
  | .kscount => s.lfsr.kscount
  | .din => s.din
  | .dinb => s.dinb
  | .dout => s.dout
  | .bscount => bscountWord s.bs
  | .seedw j => getWord s.seed j
  | .statew j => getWord s.lfsr.st j
  | .reserved => 0#32

/-- What a read returns while BUSY = 1, given the free value drawn for it (R110): ID, CFG, CMD and reserved offsets as always; STATUS
with bit 0 = 1, bits [31:4] = 0 and bits [3:1] free; every other register free. -/
def busyRead (free : Word) (s : State) : Reg → Word
  | .id => Config.idWord
  | .cfg => cfgWord s.params
  | .cmd => 0#32
  | .status => 0#28 ++ free.extractLsb' 1 3 ++ 1#1
  | .errcode => free
  | .errcmd => free
  | .active => free
  | .kscount => free
  | .din => free
  | .dinb => free
  | .dout => free
  | .bscount => free
  | .seedw _ => free
  | .statew _ => free
  | .reserved => 0#32

end Sys2Proof.Machine
end

