-- ==== Sys2Proof/Machine/Bus.lean ====
section
/-! DEFINITION. Host accesses (20_memory.md R40 to R42), the command issue with the error lock (60_exceptions.md R100), the completion
step (70_reset_and_hazards.md R109), the reset input (R107), and the port's pins (R37). -/

namespace Sys2Proof.Machine

/-! ## Command issue -/

/-- The commands that run under the error lock: CLRERR and SOFTRESET (R42, R100). -/
def runsUnderLock : Instr → Bool
  | .nop => false
  | .clrerr => true
  | .softreset => true
  | .load _ _ => false
  | .step => false
  | .gen _ => false
  | .s2b _ => false
  | .b2s _ => false
  | .i2b _ => false
  | .spush _ => false
  | .spop => false
  | .bpush _ => false
  | .bpop _ => false
  | .sclr => false
  | .schk => false
  | .sxor => false
  | .xor _ _ => false
  | .crypt _ => false

/-- A write of v to CMD while BUSY = 0 (R42, log 7): BUSY is set; under the error lock all but CLRERR and SOFTRESET have no other effect; an
Illegal word raises IllegalCommand (R56); a command runs its rule. -/
def issue (v : Word) (s : State) : Host.Outcome State Fault Refusal :=
  match decode v with
  | .error _ => if s.error.err then .next (s.setBusy true) else raise .illegalCommand v (s.setBusy true)
  | .ok i => if s.error.err && !runsUnderLock i then .next (s.setBusy true) else exec i (s.setBusy true)

/-! ## Host accesses -/

/-- `MemRead` at a word offset (R40, R110): the value goes to the host, no state element of the block changes. A read while BUSY = 1
takes a fresh free value (log 5). -/
def hostRead (a : WordOffset) (s : State) : State :=
  if s.busy then (s.logRead (busyRead (Config.freeRead s.draws) s (regAt s.params a))).drawn
  else s.logRead (readReg s (regAt s.params a))

/-- The effect of a write on the register it addresses (R41): DIN, DINB and SEEDW take the word, every other register but CMD ignores
it (R19). -/
def writeReg (v : Word) (s : State) : Reg → Host.Outcome State Fault Refusal
  | .cmd => issue v s
  | .din => .next { s with din := v }
  | .dinb => .next { s with dinb := v }
  | .seedw j => .next { s with seed := setWord s.seed j v }
  | .id => .next s
  | .cfg => .next s
  | .status => .next s
  | .errcode => .next s
  | .errcmd => .next s
  | .active => .next s
  | .kscount => .next s
  | .dout => .next s
  | .bscount => .next s
  | .statew _ => .next s
  | .reserved => .next s

/-- `MemWrite` at a word offset (R41): while BUSY = 1 it is dropped and recorded as CmdOverrun (R111). -/
def hostWrite (a : WordOffset) (v : Word) (s : State) : Host.Outcome State Fault Refusal :=
  if s.busy then .next (s.recordError .cmdOverrun (byteOffset a) v)
  else writeReg v s (regAt s.params a)

/-! ## The sequencer, the reset input, and the next event -/

/-- The completion step: BUSY returns to 0, and nothing else changes (R109). With BUSY = 0 there is nothing to complete (log 3). -/
def completion (s : State) : State := s.setBusy false

/-- A rising edge with rst = 1 (R107): every state element takes its reset value and BUSY becomes 0. A write presented with it has no
effect; a read returns a free value (log 5). -/
def resetEdge (presented : Option Access) (s : State) : State :=
  match presented with
  | some (.read _) => ((s.clear.setBusy false).logRead (Config.freeRead s.draws)).drawn
  | some (.write _ _) => s.clear.setBusy false
  | none => s.clear.setBusy false

/-- What an event does. -/
def runEvent (e : Event) (s : State) : Host.Outcome State Fault Refusal :=
  match e with
  | .access (.read a) => .next (hostRead a s)
  | .access (.write a v) => hostWrite a v s
  | .complete => .next (completion s)
  | .rst presented => .next (resetEdge presented s)

/-- The block's next step: the next event, if one is to come. When the host makes no further access, a command in flight completes
(the completion step is not postponed for ever, R109); with BUSY = 0 as well the run has ended and nothing changes (R118, log 3). -/
def nextEvent (s : State) : Host.Outcome State Fault Refusal :=
  match s.pending with
  | e :: rest => runEvent e { s with pending := rest }
  | [] => .next (completion s)

/-- The state in which the next step is the issue of the command word v: the host's write of v to CMD is the next event, and no command
is in flight to drop it (log 12). -/
def presentCommand (v : Word) (s : State) : State :=
  { s with busy := false, pending := .access (.write (wordAt 0x008) v) :: s.pending }

/-! ## The port (R37) -/

/-- The input pins of one clock cycle. -/
structure Pins where
  rst   : Bool
  sel   : Bool
  we    : Bool
  addr  : WordOffset
  wdata : Word
deriving DecidableEq, Repr

/-- The access the pins present, if any. -/
def pinsAccess (p : Pins) : Option Access :=
  if p.sel then some (if p.we then .write p.addr p.wdata else .read p.addr) else none

/-- The event of one clock cycle as the pins present it; a cycle with neither reset nor access is none (log 16). -/
def pinsEvent (p : Pins) : Option Event :=
  if p.rst then some (.rst (pinsAccess p)) else (pinsAccess p).map Event.access

end Sys2Proof.Machine
end

