-- ==== Sys2Proof/Machine/Step.lean ====
section
/-! DEFINITION. One step of the block: its next event. And where a command word is placed for the next step to issue it. -/

namespace Sys2Proof.Machine

/-- One step: the next event of the host, of the sequencer or of the reset input. -/
def step (s : State) : Host.Outcome State Fault Refusal := nextEvent s

/-- The state in which the next step issues the command word `w` of the opcode table: the host's write of it to CMD comes next
(log 12). -/
def State.withFetchWord (s : State) (nbits w : Nat) : State := presentCommand (tableWord nbits w) s

end Sys2Proof.Machine
end

