-- ==== Sys2Proof/Machine/HostProgram.lean ====
section
/-! DEFINITION. Host-side sequences as lists of events: the pseudo-instructions of 30_encoding.md R59, the boot sequence of
70_reset_and_hazards.md R108, and the message sequences of 43_xor_crypt.md R88 and 70_reset_and_hazards.md R115. A list fixes one
schedule of the sequencer: `polls` is how many reads of STATUS a WAIT makes before the completion step comes. DESIGN CHOICE (log 18): all
WAITs of one sequence share that number, where R109 leaves it open for each command; another schedule is a list put together from
issueSeq with a number for each command. -/

namespace Sys2Proof.Machine

/-- `WR reg, v` (R58). -/
def wrAt (byteOff : Nat) (v : Word) : Event := .access (.write (wordAt byteOff) v)

/-- `RD reg` (R58). -/
def rdAt (byteOff : Nat) : Event := .access (.read (wordAt byteOff))

/-- WAIT: read STATUS until the value read has bit 0 = 0 (R59). -/
def waitSeq (polls : Nat) : List Event := List.replicate polls (rdAt 0x00C) ++ [.complete, rdAt 0x00C]

/-- ISSUE cmd: `WR CMD, encode(cmd)` then WAIT (R59). -/
def issueSeq (polls : Nat) (i : Instr) : List Event := wrAt 0x008 (encode i) :: waitSeq polls

/-- ENC c: ISSUE CRYPT c (R59). -/
def encSeq (polls : Nat) (c : Symbol) : List Event := issueSeq polls (.crypt c)

/-- DEC c: ISSUE CRYPT c (R59). -/
def decSeq (polls : Nat) (c : Symbol) : List Event := issueSeq polls (.crypt c)

/-- The sum of `b(t) * 2^t` over the first 32 elements, element 0 first (R59). -/
def valLsb : Nat → BitSeq → Nat
  | 0, _ => 0
  | _ + 1, [] => 0
  | t + 1, b :: s => b.toNat + 2 * valLsb t s

/-- The word SEEDSET writes to SEEDW[j] (R59). -/
def seedWord (bits : BitSeq) (j : Nat) : Word := BitVec.ofNat 32 (valLsb 32 (bits.drop (32 * j)))

/-- SEEDSET [b0, ..., b(n-1)]: every seed word is written (R59). The empty list writes zeros, the model's choice (log 19). -/
def seedSetSeq (p : Params) (bits : BitSeq) : List Event :=
  (List.range p.seedWords).map fun j => wrAt (0x100 + 4 * j) (seedWord bits j)

/-- The LOAD that a seed of n elements stands for: N = n (R59, R108). DESIGN CHOICE (log 19): for n = 1024 or more, which has no value of
the 10-bit field N and on which the spec is silent, N is n mod 1024; n = 0 gives LOAD 0, which raises EmptySeed (R77). -/
def seedLoad (bits : BitSeq) (k : LfsrIndex) : Instr := .load (BitVec.ofNat 10 bits.length) k

/-- KEY [b0, ..., b(n-1)], k: SEEDSET then ISSUE LOAD n, k (R59). What it stands for when n is 0, or 1024 or more, is the model's choice
(seedLoad, log 19). -/
def keySeq (p : Params) (polls : Nat) (bits : BitSeq) (k : LfsrIndex) : List Event :=
  seedSetSeq p bits ++ issueSeq polls (seedLoad bits k)

/-- SPUSHS "c1...cm": ISSUE SPUSH of each symbol in order (R59), every WAIT with the same number of polls (DESIGN CHOICE, log 18). -/
def spushsSeq (polls : Nat) (msg : List Symbol) : List Event := msg.flatMap fun c => issueSeq polls (.spush c)

/-- SPOPS m: m times ISSUE SPOP then RD DOUT (R59), every WAIT with the same number of polls (DESIGN CHOICE, log 18). -/
def spopsSeq (polls m : Nat) : List Event := (List.replicate m (issueSeq polls .spop ++ [rdAt 0x028])).flatten

/-- One chunk of a message by the stream path (R115), every WAIT with the same number of polls (DESIGN CHOICE, log 18). -/
def chunkSeq (polls : Nat) (msg : List Symbol) : List Event :=
  spushsSeq polls msg ++ issueSeq polls .sxor ++ issueSeq polls .schk ++ spopsSeq polls msg.length

/-- The source's encrypt (and decrypt) of a message by the stream path (R88), every WAIT with the same number of polls (DESIGN CHOICE,
log 18). -/
def encryptSeq (p : Params) (polls : Nat) (seed : BitSeq) (k : LfsrIndex) (msg : List Symbol) : List Event :=
  keySeq p polls seed k ++ issueSeq polls .sclr ++ chunkSeq polls msg

/-- The same, one CRYPT per symbol with a read of DOUT after each (R88), every WAIT with the same number of polls (DESIGN CHOICE,
log 18). -/
def encryptBySymbolSeq (p : Params) (polls : Nat) (seed : BitSeq) (k : LfsrIndex) (msg : List Symbol) : List Event :=
  keySeq p polls seed k ++ msg.flatMap fun c => encSeq polls c ++ [rdAt 0x028]

/-- What a host does after reset before the keystream rules apply (R108): read ID and CFG, write the ceil(N/32) seed words, LOAD, look at
STATUS, and clear the buffer. Both WAITs have the same number of polls (DESIGN CHOICE, log 18). -/
def bootSeq (polls : Nat) (seed : BitSeq) (k : LfsrIndex) : List Event :=
  [rdAt 0x000, rdAt 0x004] ++
  (List.range ((seed.length + 31) / 32)).map (fun j => wrAt (0x100 + 4 * j) (seedWord seed j)) ++
  issueSeq polls (seedLoad seed k) ++ [rdAt 0x00C] ++ issueSeq polls .sclr

end Sys2Proof.Machine
end

