-- ==== Sys2Proof/Safety.lean ====
section
/-! DEFINITION. What claims call a good state and a run: the invariants of 10_state.md R35, the end of a run (70_reset_and_hazards.md
R118), and states that agree on what the spec gives the machine. -/

namespace Sys2Proof.Machine

/-- The invariants (I1) to (I5) of every reachable state (R35). -/
structure State.Inv (s : State) : Prop where
  /-- (I1) -/
  stream_fits : s.bs.length ≤ s.params.bsmax
  /-- (I2) -/
  seeded_legal : s.lfsr.seeded = true →
    1 ≤ s.lfsr.an.toNat ∧ s.lfsr.an.toNat ≤ s.params.nmax ∧ s.lfsr.ak.toNat < s.lfsr.an.toNat
  /-- (I3) -/
  unseeded_zero : s.lfsr.seeded = false →
    s.lfsr.an = 0#10 ∧ s.lfsr.ak = 0#10 ∧ s.lfsr.st = 0#s.params.nmax ∧ s.lfsr.kscount = 0#32
  /-- (I4) -/
  high_zero : ∀ i, s.lfsr.an.toNat ≤ i → s.lfsr.st.getLsbD i = false
  /-- (I5) -/
  error_record : (s.error.err = false → s.error.ecode = 0#4 ∧ s.error.eoff = 0#12 ∧ s.error.ecmd = 0#32) ∧
    (s.error.err = true → s.error.ecode ≠ 0#4)

/-- A generator that KSBIT may be called on, with what R35 says of it: a length from 1 to the register's width, a tap below it, and 0 at
and above it (R76). -/
structure Lfsr.Ready {w : Nat} (l : Lfsr w) : Prop where
  seeded : l.seeded = true
  length_pos : 1 ≤ l.an.toNat
  length_le : l.an.toNat ≤ w
  tap_lt : l.ak.toNat < l.an.toNat
  high_zero : ∀ i, l.an.toNat ≤ i → l.st.getLsbD i = false

/-- A run has ended: the host makes no further access and BUSY = 0 (R118). DESIGN CHOICE (log 3): the run goes on while any event is to
come, so an edge with rst = 1, or a completion step, that stands after the host's last access is still part of it. -/
def State.runEnded (s : State) : Prop := s.pending = [] ∧ s.busy = false

/-- The state after an error with this code was recorded for the command word v: ERR, ECODE, EOFF = 0x008, ECMD, and nothing else
(R98). -/
def State.failed (code : BitVec 4) (v : Word) (s : State) : State :=
  { s with error := { err := true, ecode := code, eoff := 0x008#12, ecmd := v } }

/-- Every state element but BUSY at its reset value (R36). -/
structure State.AtReset (s : State) : Prop where
  seed : s.seed = 0#s.params.nmax
  st : s.lfsr.st = 0#s.params.nmax
  an : s.lfsr.an = 0#10
  ak : s.lfsr.ak = 0#10
  seeded : s.lfsr.seeded = false
  kscount : s.lfsr.kscount = 0#32
  bs : s.bs = []
  din : s.din = 0#32
  dinb : s.dinb = 0#32
  dout : s.dout = 0#32
  err : s.error.err = false
  ecode : s.error.ecode = 0#4
  eoff : s.error.eoff = 0#12
  ecmd : s.error.ecmd = 0#32

/-- Issued with BUSY = 0 and ERR = 0, the word v raises IllegalCommand, code 1, with no other effect but BUSY (R56, R57). -/
def RaisesIllegalCommand (v : Word) : Prop :=
  ∀ s : State, s.busy = false → s.error.err = false → hostWrite 2#10 v s = .next (({ s with busy := true } : State).failed 1#4 v)

/-- With BUSY = 0, a read of the register at byte offset `off` answers the word x and changes nothing of the block (R40). -/
def State.ReadsAs (s : State) (off : Nat) (x : Word) : Prop :=
  runEvent (.access (.read (BitVec.ofNat 10 (off / 4)))) s = .next { s with reads := s.reads ++ [x] }

/-- A byte offset the register map calls reserved in a block with NMAX = nmax (R18). -/
def ReservedOffset (nmax off : Nat) : Prop :=
  (0x030 ≤ off ∧ off < 0x100) ∨ (0x100 + nmax / 8 ≤ off ∧ off < 0x200) ∨ (0x200 + nmax / 8 ≤ off ∧ off < 0x1000)

/-- A byte offset of a register the host can read but not write: ID, CFG, STATUS to KSCOUNT, DOUT, BSCOUNT, STATEW (R18). -/
def ReadOnlyOffset (nmax off : Nat) : Prop :=
  off = 0x000 ∨ off = 0x004 ∨ (0x00C ≤ off ∧ off < 0x020) ∨ off = 0x028 ∨ off = 0x02C ∨ (0x200 ≤ off ∧ off < 0x200 + nmax / 8)

/-- The rules of a list of commands, one after another, with the value of DOUT after each; it stops where a rule does not answer a
next state. -/
def execAll : List Instr → State → List Word × State
  | [], s => ([], s)
  | i :: is, s =>
    match exec i s with
    | .next t => (t.dout :: (execAll is t).1, (execAll is t).2)
    | .fault _ => ([], s)
    | .refused _ => ([], s)

/-- The state with the model's own fields set aside: what is left is the instance and R14's state elements. -/
def State.arch (s : State) : State := { s with pending := [], reads := [], draws := 0 }

end Sys2Proof.Machine
end

