-- ==== Sys2Proof/Certificates/Slice0/Obligations.lean ====
section
/-! DEFINITION. The statements for the provers: the encoding, reset and the invariants, host accesses, each command's rule, the error
rules, and the laws of the keystream, the codec and the cipher. Every statement holds for every NMAX and BSMAX of R7 and R8, since a
state carries its parameters (log 1). The word offset 2 is CMD, byte offset 0x008. -/

open Sys2Proof Sys2Proof.Machine

/-! ## Encoding (30_encoding.md) -/

/-- R53, R55, R56: no field of a command is dropped or moved between the encoder and the decoder. -/
def Obligations.WellFormedCommandDecodesFromItsWord : Prop :=
  ∀ i : Instr, i.wellFormed = true → decode (encode i) = .ok i

/-- R52, R56: a word that decodes to a command is that command's one word, so the word the model records in ECMD for a command is the
word that was written (log 6). -/
def Obligations.DecodedWordIsItsCommandsOnlyWord : Prop :=
  ∀ (v : Word) (i : Instr), decode v = .ok i → i.wellFormed = true ∧ encode i = v

/-- R55: a word is legal exactly when it selects a row by the columns match, mask and constraint, and no other row matches it. -/
def Obligations.WordIsLegalExactlyWhenOneRowMatches : Prop :=
  ∀ v : Word, (∃ i, decode v = .ok i) ↔
    ∃ r : Row, v &&& r.matchMask.2 = r.matchMask.1 ∧
      (r.format = .w → (v.extractLsb' 0 6).toNat ≤ 32) ∧
      (r.format = .x → (v.extractLsb' 0 6).toNat ≤ 32 ∧ (v.extractLsb' 6 6).toNat ≤ 32) ∧
      ∀ r' : Row, v &&& r'.matchMask.2 = r'.matchMask.1 → r' = r

/-- R57: which words are illegal, and that issuing any of them has no meaning but IllegalCommand (or none, under the lock). -/
def Obligations.IllegalWordsAreThoseOfTheReservedSpace : Prop :=
  ((List.range 256).filter fun n => (Row.ofOpc (BitVec.ofNat 8 n)).isNone).length = 238 ∧
  (∀ v : Word, (∃ e, decode v = .error e) ↔
    (∀ r : Row, v.extractLsb' 24 8 ≠ r.opc) ∨
    (∃ r : Row, v.extractLsb' 24 8 = r.opc ∧ (v.extractLsb' r.format.operandBits (24 - r.format.operandBits)).toNat ≠ 0) ∨
    (∃ r : Row, v.extractLsb' 24 8 = r.opc ∧ r.format = .w ∧ 33 ≤ (v.extractLsb' 0 6).toNat) ∨
    (∃ r : Row, v.extractLsb' 24 8 = r.opc ∧ r.format = .x ∧
      (33 ≤ (v.extractLsb' 0 6).toNat ∨ 33 ≤ (v.extractLsb' 6 6).toNat))) ∧
  (∀ v e, decode v = .error e → RaisesIllegalCommand v ∧
    ∀ s : State, s.busy = false → s.error.err = true → hostWrite 2#10 v s = .next { s with busy := true })

/-- Sanity: words the spec writes out for one or more commands of each family decode to them. -/
def Obligations.SpecWordsDecodeToTheirCommands : Prop :=
  decode 0x01000000#32 = .ok .clrerr ∧ decode 0x10000805#32 = .ok (.load 5#10 2#10) ∧ decode 0x1200000C#32 = .ok (.gen 12#6) ∧
  decode 0x20000048#32 = .ok (.s2b 0x48#8) ∧ decode 0x21000007#32 = .ok (.b2s 7#6) ∧ decode 0x30000048#32 = .ok (.spush 0x48#8) ∧
  decode 0x33000020#32 = .ok (.bpop 32#6) ∧ decode 0x400001C8#32 = .ok (.xor 8#6 7#6) ∧ decode 0x41000069#32 = .ok (.crypt 0x69#8)

/-! ## Reset and invariants (10_state.md, 70_reset_and_hazards.md) -/

/-- R36: after reset, after a clock edge with rst = 1, and after SOFTRESET, every state element has its reset value; BUSY is 0 after
reset and follows R109 after SOFTRESET. -/
def Obligations.EveryElementHasItsResetValue : Prop :=
  (∀ p : Params, (State.resetOf p).AtReset ∧ (State.resetOf p).busy = false) ∧
  (∀ (s : State) (presented : Option Access), ∃ t, runEvent (.rst presented) s = .next t ∧
    t.params = s.params ∧ t.AtReset ∧ t.busy = false) ∧
  (∀ s : State, s.busy = false → ∃ t, hostWrite 2#10 0x02000000#32 s = .next t ∧
    t.params = s.params ∧ t.AtReset ∧ t.busy = true ∧ runEvent .complete t = .next { t with busy := false })

/-- R107: a clock edge with rst = 1 sets every element whatever is in flight; a write presented with it has no effect, and a read
returns a value the spec leaves open (a free value, log 5). -/
def Obligations.ResetEdgeOverridesEverything : Prop :=
  ∀ s : State, ∃ t : State, t.AtReset ∧ t.busy = false ∧ t.params = s.params ∧ t.pending = s.pending ∧ t.reads = s.reads ∧
    t.draws = s.draws ∧ runEvent (.rst none) s = .next t ∧
    (∀ a v, runEvent (.rst (some (.write a v))) s = .next t) ∧
    (∀ a, runEvent (.rst (some (.read a))) s =
      .next { t with reads := s.reads ++ [Config.freeRead s.draws], draws := s.draws + 1 })

/-- R35 at reset, for every instance. -/
def Obligations.ResetStateMeetsInvariants : Prop := ∀ p : Params, (State.resetOf p).Inv

/-- R35: every step, of the host, the sequencer or the reset input, keeps (I1) to (I5). -/
def Obligations.EveryStepKeepsInvariants : Prop := ∀ s t : State, s.Inv → step s = .next t → t.Inv

/-- R97: codes 12 to 15 are never reported: they are not at reset, and no step brings one in. -/
def Obligations.ReportedErrorCodesStayBelow12 : Prop :=
  (∀ p : Params, (State.resetOf p).error.ecode.toNat ≤ 11) ∧
  (∀ s t : State, s.error.ecode.toNat ≤ 11 → step s = .next t → t.error.ecode.toNat ≤ 11)

/-- The block never stops: the port has no error response (R37), and an error is a record (R98). -/
def Obligations.EveryStepAnswersANextState : Prop := ∀ s : State, ∃ t, step s = .next t

/-- R109, R118: once the host's events are over a run ends, one step later at the latest, and then nothing changes any more. The list of
events, that the completion step comes when the list is empty, and that a run goes on while any event is to come, be it an edge with
rst = 1 after the host's last access, are the model's choice (logs 2, 3). -/
def Obligations.EveryRunEndsAfterItsEvents : Prop :=
  (∀ s : State, ∃ t : State, Host.Core.run Sys2Proof.core (s.pending.length + 1) s = .next t ∧ t.runEnded) ∧
  (∀ (s : State) (n : Nat), s.runEnded → Host.Core.run Sys2Proof.core n s = .next s)

/-! ## Host accesses (20_memory.md, 70_reset_and_hazards.md) -/

/-- R42: a write of v to CMD while BUSY = 0, as the next event. BUSY is set; an illegal word raises IllegalCommand; under the lock only
CLRERR and SOFTRESET run; otherwise the decoded command's rule runs, on the state as it is at acceptance. Also as
withFetchWord places a command (the model's choice, log 12). -/
def Obligations.StepRunsTheDecodedCommand : Prop :=
  (∀ (s : State) (v : Word) (i : Instr) (rest : List Event), s.busy = false → s.pending = .access (.write 2#10 v) :: rest →
    decode v = .ok i →
    step s = if s.error.err = true ∧ i ≠ .clrerr ∧ i ≠ .softreset then .next { s with pending := rest, busy := true }
      else exec i { s with pending := rest, busy := true }) ∧
  (∀ (s : State) (v : Word) (e : IllegalWord) (rest : List Event), s.busy = false → s.pending = .access (.write 2#10 v) :: rest →
    decode v = .error e →
    step s = .next (if s.error.err = true then { s with pending := rest, busy := true }
      else { s with pending := rest, busy := true, error := { err := true, ecode := 1#4, eoff := 8#12, ecmd := v } })) ∧
  (∀ (s : State) (i : Instr), i.wellFormed = true → s.error.err = false →
    step (s.withFetchWord 32 (encode i).toNat) = exec i { s with busy := true })

/-- R100: under the error lock a command but CLRERR and SOFTRESET only sets BUSY; register writes are still accepted; the record is kept
by every step but those that end the lock: CLRERR, SOFTRESET, rst. -/
def Obligations.ErrorLockHoldsUntilCleared : Prop :=
  (∀ (s : State) (v : Word), s.busy = false → s.error.err = true → decode v ≠ .ok .clrerr → decode v ≠ .ok .softreset →
    hostWrite 2#10 v s = .next { s with busy := true }) ∧
  (∀ (s : State) (v : Word), s.busy = false → s.error.err = true →
    hostWrite 8#10 v s = .next { s with din := v } ∧ hostWrite 9#10 v s = .next { s with dinb := v } ∧
    ∀ j, j < s.params.nmax / 32 → ∃ x, hostWrite (BitVec.ofNat 10 (64 + j)) v s = .next { s with seed := x } ∧ getWord x j = v) ∧
  (∀ s t : State, s.error.err = true → step s = .next t → t.error = s.error ∨
    (∃ rest, s.pending = .access (.write 2#10 0x01000000#32) :: rest) ∨
    (∃ rest, s.pending = .access (.write 2#10 0x02000000#32) :: rest) ∨
    (∃ p rest, s.pending = .rst p :: rest)) ∧
  (∀ s : State, s.busy = false → ∀ v, v = 0x01000000#32 ∨ v = 0x02000000#32 →
    ∃ t, hostWrite 2#10 v s = .next t ∧ t.error = { err := false, ecode := 0#4, eoff := 0#12, ecmd := 0#32 }) ∧
  (∀ (s : State) (p : Option Access), ∃ t, runEvent (.rst p) s = .next t ∧
    t.error = { err := false, ecode := 0#4, eoff := 0#12, ecmd := 0#32 })

/-- R41: every host write, at every word offset. While BUSY = 1 it is dropped and recorded as CmdOverrun if no error is; otherwise CMD
issues, DIN, DINB and SEEDW take the word, and every other register ignores it. -/
def Obligations.HostWriteReachesOnlyItsRegister : Prop :=
  ∀ (s : State) (a : WordOffset) (v : Word),
    (s.busy = true → runEvent (.access (.write a v)) s = .next (if s.error.err = true then s
      else { s with error := { err := true, ecode := 11#4, eoff := BitVec.ofNat 12 (4 * a.toNat), ecmd := v } })) ∧
    (s.busy = false →
      (4 * a.toNat = 0x008 → runEvent (.access (.write a v)) s = issue v s) ∧
      (4 * a.toNat = 0x020 → runEvent (.access (.write a v)) s = .next { s with din := v }) ∧
      (4 * a.toNat = 0x024 → runEvent (.access (.write a v)) s = .next { s with dinb := v }) ∧
      (∀ j, j < s.params.nmax / 32 → 4 * a.toNat = 0x100 + 4 * j →
        ∃ x, runEvent (.access (.write a v)) s = .next { s with seed := x } ∧
          ∀ b, b < s.params.nmax →
            x.getLsbD b = if 32 * j ≤ b ∧ b < 32 * j + 32 then v.getLsbD (b - 32 * j) else s.seed.getLsbD b) ∧
      (4 * a.toNat ≠ 0x008 → 4 * a.toNat ≠ 0x020 → 4 * a.toNat ≠ 0x024 →
        (∀ j, j < s.params.nmax / 32 → 4 * a.toNat ≠ 0x100 + 4 * j) → runEvent (.access (.write a v)) s = .next s))

/-- R20, R21, R22, R23, R24, R25, R26: what the identification, status and error registers read as while BUSY = 0, field by field. -/
def Obligations.IdleReadsShowIdentificationAndStatus : Prop :=
  ∀ s : State, s.busy = false →
    s.ReadsAs 0x000 0x4C360100#32 ∧
    (∃ x, s.ReadsAs 0x004 x ∧ (x.extractLsb' 0 16).toNat = s.params.nmax ∧ (x.extractLsb' 16 16).toNat = s.params.bsmax) ∧
    s.ReadsAs 0x008 0#32 ∧
    (∃ x, s.ReadsAs 0x00C x ∧ x.getLsbD 0 = false ∧ x.getLsbD 1 = s.error.err ∧ x.getLsbD 2 = s.lfsr.seeded ∧
      x.getLsbD 3 = (s.lfsr.seeded && decide (s.lfsr.ak.toNat = s.lfsr.an.toNat - 1)) ∧ x.extractLsb' 4 28 = 0#28) ∧
    (∃ x, s.ReadsAs 0x010 x ∧ x.extractLsb' 0 4 = s.error.ecode ∧ x.extractLsb' 4 12 = 0#12 ∧
      x.extractLsb' 16 12 = s.error.eoff ∧ x.extractLsb' 28 4 = 0#4) ∧
    s.ReadsAs 0x014 s.error.ecmd ∧
    (∃ x, s.ReadsAs 0x018 x ∧ x.extractLsb' 0 10 = s.lfsr.an ∧ x.extractLsb' 10 6 = 0#6 ∧
      x.extractLsb' 16 10 = s.lfsr.ak ∧ x.extractLsb' 26 6 = 0#6)

/-- R27, R28, R29, R30, R31, R32: what the counters, operand and result registers and the windows on SEED and ST read as while
BUSY = 0. -/
def Obligations.IdleReadsShowDataRegisters : Prop :=
  ∀ s : State, s.busy = false → s.bs.length ≤ s.params.bsmax →
    s.ReadsAs 0x01C s.lfsr.kscount ∧ s.ReadsAs 0x020 s.din ∧ s.ReadsAs 0x024 s.dinb ∧ s.ReadsAs 0x028 s.dout ∧
    (∃ x, s.ReadsAs 0x02C x ∧ (x.extractLsb' 0 16).toNat = s.bs.length ∧ x.extractLsb' 16 16 = 0#16) ∧
    (∀ j, j < s.params.nmax / 32 →
      (∃ x, s.ReadsAs (0x100 + 4 * j) x ∧ ∀ b, b < 32 → x.getLsbD b = s.seed.getLsbD (32 * j + b)) ∧
      (∃ x, s.ReadsAs (0x200 + 4 * j) x ∧ ∀ b, b < 32 → x.getLsbD b = s.lfsr.st.getLsbD (32 * j + b)))

/-- R19: a reserved offset reads 0, and writes to it and to read-only registers have no effect and raise no error. -/
def Obligations.ReservedOffsetsReadZeroAndIgnoreWrites : Prop :=
  ∀ (s : State) (a : WordOffset) (v : Word), s.busy = false →
    (ReservedOffset s.params.nmax (4 * a.toNat) → s.ReadsAs (4 * a.toNat) 0#32) ∧
    (ReservedOffset s.params.nmax (4 * a.toNat) ∨ ReadOnlyOffset s.params.nmax (4 * a.toNat) →
      runEvent (.access (.write a v)) s = .next s)

/-- R110: a read while BUSY = 1. ID and CFG read as ever, CMD and reserved offsets 0, STATUS with bit 0 = 1 and [31:4] = 0, and the rest
a free value, a fresh one at each read (log 5). That a free value is a
constant applied to a counter is the model's choice (log 5). The completion step leaves everything the later reads show. -/
def Obligations.ReadsWhileBusyReturnOpenValues : Prop :=
  (∀ (s : State) (a : WordOffset), s.busy = true → ∃ x,
    runEvent (.access (.read a)) s = .next { s with reads := s.reads ++ [x], draws := s.draws + 1 } ∧
    (4 * a.toNat = 0x000 → x = 0x4C360100#32) ∧
    (4 * a.toNat = 0x004 → (x.extractLsb' 0 16).toNat = s.params.nmax ∧ (x.extractLsb' 16 16).toNat = s.params.bsmax) ∧
    (4 * a.toNat = 0x008 ∨ ReservedOffset s.params.nmax (4 * a.toNat) → x = 0#32) ∧
    (4 * a.toNat = 0x00C → x.getLsbD 0 = true ∧ x.extractLsb' 4 28 = 0#28 ∧
      x.extractLsb' 1 3 = (Config.freeRead s.draws).extractLsb' 1 3) ∧
    ((0x010 ≤ 4 * a.toNat ∧ 4 * a.toNat < 0x030) ∨ (0x100 ≤ 4 * a.toNat ∧ 4 * a.toNat < 0x100 + s.params.nmax / 8) ∨
      (0x200 ≤ 4 * a.toNat ∧ 4 * a.toNat < 0x200 + s.params.nmax / 8) → x = Config.freeRead s.draws)) ∧
  (∀ s : State, runEvent .complete s = .next { s with busy := false })

/-- R109: every command issue sets BUSY; the completion step clears it and changes nothing else; any number of accesses may come in
between, each leaving BUSY at 1; and when the host makes no further access the completion step comes (the model's choice of how, log
3). -/
def Obligations.CompletionStepClearsBusyOnly : Prop :=
  (∀ (s t : State) (v : Word), s.busy = false → hostWrite 2#10 v s = .next t → t.busy = true) ∧
  (∀ (s : State) (rest : List Event), s.pending = .complete :: rest → step s = .next { s with busy := false, pending := rest }) ∧
  (∀ (s t : State) (a : Access), s.busy = true → runEvent (.access a) s = .next t → t.busy = true) ∧
  (∀ s : State, s.pending = [] → step s = .next { s with busy := false })

/-- R59, R109: ISSUE of a command, under every schedule of the sequencer: however many reads of STATUS the WAIT makes before the
completion step (log 18), the command's rule runs once, each of those reads has bit 0 = 1, the last one has bit 0 = 0, and BUSY is 0. -/
def Obligations.IssueSequenceRunsTheCommandOnce : Prop :=
  ∀ (s : State) (i : Instr) (polls : Nat) (rest : List Event), i.wellFormed = true → s.busy = false → s.error.err = false →
    s.pending = issueSeq polls i ++ rest →
    ∃ (t : State) (polled : List Word) (last : Word),
      exec i { s with busy := true, pending := waitSeq polls ++ rest } = .next t ∧
      Host.Core.run Sys2Proof.core (polls + 3) s = .next { t with
        busy := false, pending := rest, reads := s.reads ++ polled ++ [last], draws := s.draws + polls } ∧
      polled.length = polls ∧ (∀ x ∈ polled, x.getLsbD 0 = true) ∧ last = statusWord { t with busy := false } ∧
      last.getLsbD 0 = false

/-- R40, R43: a read changes no state element of the block, and a write of DIN, DINB or SEEDW made twice leaves what it left once. -/
def Obligations.ReadsHaveNoSideEffectsAndWritesRepeat : Prop :=
  (∀ (s t : State) (a : WordOffset), runEvent (.access (.read a)) s = .next t → t.arch = s.arch ∧ t.pending = s.pending) ∧
  (∀ (s t : State) (a : WordOffset) (v : Word), s.busy = false → 4 * a.toNat ≠ 0x008 →
    runEvent (.access (.write a v)) s = .next t → runEvent (.access (.write a v)) t = .next t)

/-! ## Control commands (44_control.md) -/

/-- R94. -/
def Obligations.NopSetsBusyAndNothingElse : Prop :=
  encode .nop = 0x00000000#32 ∧
  (∀ v : Word, v.extractLsb' 24 8 = 0x00#8 → v.extractLsb' 0 24 ≠ 0#24 → RaisesIllegalCommand v) ∧
  (∀ s : State, exec .nop s = .next s) ∧
  (∀ s : State, s.busy = false → hostWrite 2#10 0x00000000#32 s = .next { s with busy := true })

/-- R95. -/
def Obligations.ClrerrClearsTheRecordOnly : Prop :=
  encode .clrerr = 0x01000000#32 ∧
  (∀ v : Word, v.extractLsb' 24 8 = 0x01#8 → v.extractLsb' 0 24 ≠ 0#24 → RaisesIllegalCommand v ∧
    ∀ s : State, s.busy = false → s.error.err = true → hostWrite 2#10 v s = .next { s with busy := true }) ∧
  (∀ s : State, exec .clrerr s = .next { s with error := { err := false, ecode := 0#4, eoff := 0#12, ecmd := 0#32 } }) ∧
  (∀ s : State, s.busy = false → hostWrite 2#10 0x01000000#32 s =
    .next { s with busy := true, error := { err := false, ecode := 0#4, eoff := 0#12, ecmd := 0#32 } })

/-- R96, with what follows it: every keystream command raises NotSeeded, and no command but LOAD changes that. -/
def Obligations.SoftresetReturnsEveryElement : Prop :=
  encode .softreset = 0x02000000#32 ∧
  (∀ v : Word, v.extractLsb' 24 8 = 0x02#8 → v.extractLsb' 0 24 ≠ 0#24 → RaisesIllegalCommand v ∧
    ∀ s : State, s.busy = false → s.error.err = true → hostWrite 2#10 v s = .next { s with busy := true }) ∧
  (∀ s : State, ∃ t : State, exec .softreset s = .next t ∧
    t = { s with
      seed := 0#s.params.nmax
      lfsr := { st := 0#s.params.nmax, an := 0#10, ak := 0#10, seeded := false, kscount := 0#32 }
      bs := [], din := 0#32, dinb := 0#32, dout := 0#32
      error := { err := false, ecode := 0#4, eoff := 0#12, ecmd := 0#32 } } ∧
    (s.busy = false → hostWrite 2#10 0x02000000#32 s = .next { t with busy := true }) ∧
    t.lfsr.seeded = false) ∧
  (∀ s : State, s.error.err = false → s.lfsr.seeded = false →
    exec .step s = .next (s.failed 9#4 (encode .step)) ∧ exec .sxor s = .next (s.failed 9#4 (encode .sxor)) ∧
    (∀ w, exec (.gen w) s = .next (s.failed 9#4 (encode (.gen w)))) ∧
    (∀ c, exec (.crypt c) s = .next (s.failed 9#4 (encode (.crypt c))))) ∧
  (∀ (s t : State) (i : Instr), s.lfsr.seeded = false → i.row ≠ .load → exec i s = .next t → t.lfsr.seeded = false)

/-! ## LFSR commands (42_lfsr.md) -/

/-- R76: the step, element by element and as one register update. -/
def Obligations.KsbitShiftsInTheFeedback : Prop :=
  ∀ (w : Nat) (l : Lfsr w), l.Ready →
    (ksBit l).1 = (l.st.getLsbD (l.an.toNat - 1) ^^ l.st.getLsbD l.ak.toNat) ∧
    (∀ i, i < l.an.toNat - 1 → (ksBit l).2.st.getLsbD i = l.st.getLsbD (i + 1)) ∧
    (ksBit l).2.st.getLsbD (l.an.toNat - 1) = (ksBit l).1 ∧
    (∀ i, l.an.toNat ≤ i → (ksBit l).2.st.getLsbD i = false) ∧
    (ksBit l).2.kscount.toNat = (l.kscount.toNat + 1) % 2 ^ 32 ∧
    (ksBit l).2.an = l.an ∧ (ksBit l).2.ak = l.ak ∧ (ksBit l).2.seeded = l.seeded ∧
    (ksBit l).2.st = (l.st >>> 1) ||| ((BitVec.ofBool (ksBit l).1).setWidth w <<< (l.an.toNat - 1))

/-- R77. -/
def Obligations.LoadCopiesTheSeed : Prop :=
  (∀ n k : LfsrIndex, encode (.load n k) = 0x10000000#32 + k.setWidth 32 * 0x400#32 + n.setWidth 32) ∧
  (∀ v : Word, v.extractLsb' 24 8 = 0x10#8 → v.extractLsb' 20 4 ≠ 0#4 → RaisesIllegalCommand v) ∧
  (∀ (n k : LfsrIndex) (s : State), s.error.err = false → n.toNat = 0 →
    exec (.load n k) s = .next (s.failed 6#4 (encode (.load n k)))) ∧
  (∀ (n k : LfsrIndex) (s : State), s.error.err = false → s.params.nmax < n.toNat →
    exec (.load n k) s = .next (s.failed 8#4 (encode (.load n k)))) ∧
  (∀ (n k : LfsrIndex) (s : State), s.error.err = false → 1 ≤ n.toNat → n.toNat ≤ s.params.nmax → n.toNat ≤ k.toNat →
    exec (.load n k) s = .next (s.failed 7#4 (encode (.load n k)))) ∧
  (∀ (n k : LfsrIndex) (s : State), 1 ≤ n.toNat → n.toNat ≤ s.params.nmax → k.toNat < n.toNat →
    ∃ l : Lfsr s.params.nmax, exec (.load n k) s = .next { s with lfsr := l } ∧
      l.an = n ∧ l.ak = k ∧ l.seeded = true ∧ l.kscount = 0#32 ∧
      (∀ i, l.st.getLsbD i = if i < n.toNat then s.seed.getLsbD i else false) ∧
      (statusWord { s with lfsr := l }).getLsbD 3 = decide (k.toNat + 1 = n.toNat))

/-- R78. -/
def Obligations.StepGivesOneKeystreamBit : Prop :=
  encode .step = 0x11000000#32 ∧
  (∀ v : Word, v.extractLsb' 24 8 = 0x11#8 → v.extractLsb' 0 24 ≠ 0#24 → RaisesIllegalCommand v) ∧
  (∀ s : State, s.error.err = false → s.lfsr.seeded = false → exec .step s = .next (s.failed 9#4 (encode .step))) ∧
  (∀ s : State, s.lfsr.seeded = true →
    exec .step s = .next { s with lfsr := (ksBit s.lfsr).2, dout := if (ksBit s.lfsr).1 then 1#32 else 0#32 } ∧
    (ksBit s.lfsr).2.kscount.toNat = (s.lfsr.kscount.toNat + 1) % 2 ^ 32 ∧
    (s.lfsr.ak.toNat = s.lfsr.an.toNat - 1 → (ksBit s.lfsr).1 = false))

/-- R79: GEN's loop `v <- 2*v + KSBIT()`. -/
def Obligations.GenPacksKeystreamBits : Prop :=
  (∀ w : BitCount, encode (.gen w) = 0x12000000#32 + w.setWidth 32) ∧
  (∀ v : Word, v.extractLsb' 24 8 = 0x12#8 → v.extractLsb' 6 18 ≠ 0#18 ∨ 33 ≤ (v.extractLsb' 0 6).toNat →
    RaisesIllegalCommand v) ∧
  (∀ (w : BitCount) (s : State), s.error.err = false → s.lfsr.seeded = false →
    exec (.gen w) s = .next (s.failed 9#4 (encode (.gen w)))) ∧
  (∀ (w : BitCount) (s : State), w.toNat ≤ 32 → s.lfsr.seeded = true →
    ∃ x : Word, exec (.gen w) s = .next { s with lfsr := (ksBits w.toNat s.lfsr).2, dout := x } ∧
      x.toNat = (ksBits w.toNat s.lfsr).1.foldl (fun v b => 2 * v + b.toNat) 0 ∧ x.toNat < 2 ^ w.toNat)

/-- R79: GEN W leaves the generator exactly as W STEPs would, and its result is their results in order. -/
def Obligations.GenEqualsRepeatedSteps : Prop :=
  ∀ (w : BitCount) (s : State), w.toNat ≤ 32 → s.lfsr.seeded = true →
    ∃ (l : Lfsr s.params.nmax) (x d : Word), exec (.gen w) s = .next { s with lfsr := l, dout := x } ∧
      execAll (List.replicate w.toNat .step) s =
        ((List.range w.toNat).map fun i => if x.getLsbD (w.toNat - 1 - i) then 1#32 else 0#32, { s with lfsr := l, dout := d })

/-! ## Codec commands (40_codec.md) -/

/-- R63: the two tables are inverse bijections between the 64 valid codes and the 64 indices. -/
def Obligations.AlphabetTablesAreInverse : Prop :=
  (∀ g : Group, s2i (i2s g) = some g) ∧ (∀ (c : Symbol) (g : Group), s2i c = some g → i2s g = c) ∧
  ((List.range 256).filter fun n => (s2i (BitVec.ofNat 8 n)).isSome).length = 64

/-- R64. -/
def Obligations.S2bGivesTheSymbolsIndex : Prop :=
  (∀ c : Symbol, encode (.s2b c) = 0x20000000#32 + c.setWidth 32) ∧
  (∀ v : Word, v.extractLsb' 24 8 = 0x20#8 → v.extractLsb' 8 16 ≠ 0#16 → RaisesIllegalCommand v) ∧
  (∀ (c : Symbol) (s : State), s.error.err = false → s2i c = none →
    exec (.s2b c) s = .next (s.failed 2#4 (encode (.s2b c)))) ∧
  (∀ (c : Symbol) (g : Group) (s : State), s2i c = some g → exec (.s2b c) s = .next { s with dout := g.setWidth 32 }) ∧
  (∀ c : Symbol, c = 0x40#8 ∨ c = 0x5B#8 ∨ c = 0x60#8 ∨ c = 0x7B#8 ∨ c = 0x2A#8 ∨ c = 0x2C#8 ∨ c = 0x2E#8 ∨ c = 0x3A#8 ∨
    c = 0x00#8 ∨ 0x80 ≤ c.toNat ∨ c = 0x21#8 → s2i c = none)

/-- R65. -/
def Obligations.B2sGivesTheIndexsSymbol : Prop :=
  (∀ g : Group, encode (.b2s g) = 0x21000000#32 + g.setWidth 32) ∧
  (∀ v : Word, v.extractLsb' 24 8 = 0x21#8 → v.extractLsb' 6 18 ≠ 0#18 → RaisesIllegalCommand v) ∧
  (∀ (g : Group) (s : State), exec (.b2s g) s = .next { s with dout := (i2s g).setWidth 32 }) ∧
  (∀ g : Group, s2i (i2s g) ≠ none) ∧ i2s 0#6 = 0x41#8 ∧ i2s 63#6 = 0x2F#8

/-- R66. -/
def Obligations.I2bChecksTheWidth : Prop :=
  (∀ w : BitCount, encode (.i2b w) = 0x22000000#32 + w.setWidth 32) ∧
  (∀ v : Word, v.extractLsb' 24 8 = 0x22#8 → v.extractLsb' 6 18 ≠ 0#18 ∨ 33 ≤ (v.extractLsb' 0 6).toNat →
    RaisesIllegalCommand v) ∧
  (∀ (w : BitCount) (s : State), s.error.err = false → w.toNat < 32 → 2 ^ w.toNat ≤ s.din.toNat →
    exec (.i2b w) s = .next (s.failed 4#4 (encode (.i2b w)))) ∧
  (∀ (w : BitCount) (s : State), w.toNat = 32 ∨ s.din.toNat < 2 ^ w.toNat → exec (.i2b w) s = .next { s with dout := s.din })

/-! ## Stream commands (41_stream.md) -/

/-- R11, R44, R67: the two conversions between values and bit sequences are most significant bit first and inverse, and the value of a
joined sequence is made of the values of its parts. -/
def Obligations.BitSequencesAreMostSignificantFirst : Prop :=
  (∀ v w i : Nat, i < w → (seqMSB v w)[i]? = some (v.testBit (w - 1 - i))) ∧ (∀ v w : Nat, (seqMSB v w).length = w) ∧
  (∀ s : BitSeq, valMSB s = ((List.range s.length).map fun i => (s.getD i false).toNat * 2 ^ (s.length - 1 - i)).sum) ∧
  (∀ s : BitSeq, seqMSB (valMSB s) s.length = s) ∧ (∀ v w : Nat, valMSB (seqMSB v w) = v % 2 ^ w) ∧
  (∀ s t : BitSeq, valMSB (s ++ t) = valMSB s * 2 ^ t.length + valMSB t)

/-- R68. -/
def Obligations.SpushAppendsTheSymbolsGroup : Prop :=
  (∀ c : Symbol, encode (.spush c) = 0x30000000#32 + c.setWidth 32) ∧
  (∀ v : Word, v.extractLsb' 24 8 = 0x30#8 → v.extractLsb' 8 16 ≠ 0#16 → RaisesIllegalCommand v) ∧
  (∀ (c : Symbol) (s : State), s.error.err = false → s2i c = none →
    exec (.spush c) s = .next (s.failed 2#4 (encode (.spush c)))) ∧
  (∀ (c : Symbol) (g : Group) (s : State), s.error.err = false → s2i c = some g → s.params.bsmax < s.bs.length + 6 →
    exec (.spush c) s = .next (s.failed 10#4 (encode (.spush c)))) ∧
  (∀ (c : Symbol) (g : Group) (s : State), s2i c = some g → s.bs.length + 6 ≤ s.params.bsmax →
    exec (.spush c) s = .next { s with bs := s.bs ++
      [g.getLsbD 5, g.getLsbD 4, g.getLsbD 3, g.getLsbD 2, g.getLsbD 1, g.getLsbD 0] })

/-- R69. -/
def Obligations.SpopTakesTheFirstGroup : Prop :=
  encode .spop = 0x31000000#32 ∧
  (∀ v : Word, v.extractLsb' 24 8 = 0x31#8 → v.extractLsb' 0 24 ≠ 0#24 → RaisesIllegalCommand v) ∧
  (∀ s : State, s.error.err = false → s.bs.length < 6 → exec .spop s = .next (s.failed 3#4 (encode .spop))) ∧
  (∀ (s : State) (g : Group) (rest : BitSeq),
    s.bs = g.getLsbD 5 :: g.getLsbD 4 :: g.getLsbD 3 :: g.getLsbD 2 :: g.getLsbD 1 :: g.getLsbD 0 :: rest →
    exec .spop s = .next { s with bs := rest, dout := (i2s g).setWidth 32 }) ∧
  (∀ s : State, 6 ≤ s.bs.length → ∃ (g : Group) (rest : BitSeq),
    s.bs = g.getLsbD 5 :: g.getLsbD 4 :: g.getLsbD 3 :: g.getLsbD 2 :: g.getLsbD 1 :: g.getLsbD 0 :: rest)

/-- R70. -/
def Obligations.BpushAppendsTheIntegersBits : Prop :=
  (∀ w : BitCount, encode (.bpush w) = 0x32000000#32 + w.setWidth 32) ∧
  (∀ v : Word, v.extractLsb' 24 8 = 0x32#8 → v.extractLsb' 6 18 ≠ 0#18 ∨ 33 ≤ (v.extractLsb' 0 6).toNat →
    RaisesIllegalCommand v) ∧
  (∀ (w : BitCount) (s : State), s.error.err = false → w.toNat < 32 → 2 ^ w.toNat ≤ s.din.toNat →
    exec (.bpush w) s = .next (s.failed 4#4 (encode (.bpush w)))) ∧
  (∀ (w : BitCount) (s : State), s.error.err = false → w.toNat = 32 ∨ s.din.toNat < 2 ^ w.toNat →
    s.params.bsmax < s.bs.length + w.toNat → exec (.bpush w) s = .next (s.failed 10#4 (encode (.bpush w)))) ∧
  (∀ (w : BitCount) (s : State), w.toNat = 32 ∨ s.din.toNat < 2 ^ w.toNat → s.bs.length + w.toNat ≤ s.params.bsmax →
    exec (.bpush w) s = .next { s with bs := s.bs ++ (List.range w.toNat).map fun i => s.din.getLsbD (w.toNat - 1 - i) }) ∧
  (∀ (g : Group) (s : State), s.din = g.setWidth 32 → s.bs.length + 6 ≤ s.params.bsmax →
    exec (.bpush 6#6) s = exec (.spush (i2s g)) s)

/-- R71. -/
def Obligations.BpopTakesTheFirstBits : Prop :=
  (∀ w : BitCount, encode (.bpop w) = 0x33000000#32 + w.setWidth 32) ∧
  (∀ v : Word, v.extractLsb' 24 8 = 0x33#8 → v.extractLsb' 6 18 ≠ 0#18 ∨ 33 ≤ (v.extractLsb' 0 6).toNat →
    RaisesIllegalCommand v) ∧
  (∀ (w : BitCount) (s : State), s.error.err = false → s.bs.length < w.toNat →
    exec (.bpop w) s = .next (s.failed 3#4 (encode (.bpop w)))) ∧
  (∀ (w : BitCount) (s : State), w.toNat ≤ 32 → w.toNat ≤ s.bs.length →
    ∃ x : Word, exec (.bpop w) s = .next { s with bs := s.bs.drop w.toNat, dout := x } ∧
      ∀ i, x.getLsbD i = if i < w.toNat then s.bs.getD (w.toNat - 1 - i) false else false) ∧
  (∀ s : State, 6 ≤ s.bs.length → ∃ (g : Group) (rest : BitSeq),
    exec (.bpop 6#6) s = .next { s with bs := rest, dout := g.setWidth 32 } ∧
    exec .spop s = .next { s with bs := rest, dout := (i2s g).setWidth 32 })

/-- R72. -/
def Obligations.SclrEmptiesTheBuffer : Prop :=
  encode .sclr = 0x34000000#32 ∧
  (∀ v : Word, v.extractLsb' 24 8 = 0x34#8 → v.extractLsb' 0 24 ≠ 0#24 → RaisesIllegalCommand v) ∧
  (∀ s : State, exec .sclr s = .next { s with bs := [] })

/-- R73. -/
def Obligations.SchkCountsWholeGroups : Prop :=
  encode .schk = 0x35000000#32 ∧
  (∀ v : Word, v.extractLsb' 24 8 = 0x35#8 → v.extractLsb' 0 24 ≠ 0#24 → RaisesIllegalCommand v) ∧
  (∀ s : State, s.error.err = false → s.bs.length % 6 ≠ 0 → exec .schk s = .next (s.failed 3#4 (encode .schk))) ∧
  (∀ s : State, s.bs.length ≤ s.params.bsmax → s.bs.length % 6 = 0 →
    ∃ x : Word, exec .schk s = .next { s with dout := x } ∧ x.toNat = s.bs.length / 6)

/-! ## XOR and cipher commands (43_xor_crypt.md) -/

/-- R85, with the involution of its corner cases. -/
def Obligations.XorCombinesEqualLengths : Prop :=
  (∀ la lb : BitCount, encode (.xor la lb) = 0x40000000#32 + lb.setWidth 32 * 0x40#32 + la.setWidth 32) ∧
  (∀ v : Word, v.extractLsb' 24 8 = 0x40#8 →
    v.extractLsb' 12 12 ≠ 0#12 ∨ 33 ≤ (v.extractLsb' 0 6).toNat ∨ 33 ≤ (v.extractLsb' 6 6).toNat → RaisesIllegalCommand v) ∧
  (∀ (la lb : BitCount) (s : State), s.error.err = false → la ≠ lb →
    exec (.xor la lb) s = .next (s.failed 5#4 (encode (.xor la lb)))) ∧
  (∀ (la : BitCount) (s : State), la.toNat ≤ 32 →
    ∃ x : Word, exec (.xor la la) s = .next { s with dout := x } ∧
      (∀ i, i < 32 → x.getLsbD i = (decide (i < la.toNat) && (s.din.getLsbD i ^^ s.dinb.getLsbD i))) ∧
      ∃ y : Word, exec (.xor la la) { s with din := x } = .next { s with din := x, dout := y } ∧
        ∀ i, i < 32 → y.getLsbD i = (decide (i < la.toNat) && s.din.getLsbD i))

/-- R86. -/
def Obligations.SxorCombinesTheBufferWithKeystream : Prop :=
  encode .sxor = 0x36000000#32 ∧
  (∀ v : Word, v.extractLsb' 24 8 = 0x36#8 → v.extractLsb' 0 24 ≠ 0#24 → RaisesIllegalCommand v) ∧
  (∀ s : State, s.error.err = false → s.lfsr.seeded = false → exec .sxor s = .next (s.failed 9#4 (encode .sxor))) ∧
  (∀ s : State, s.lfsr.seeded = true → ∃ (x : BitSeq) (l : Lfsr s.params.nmax),
    exec .sxor s = .next { s with bs := x, lfsr := l } ∧ l = (ksBits s.bs.length s.lfsr).2 ∧ x.length = s.bs.length ∧
    (∀ i, i < s.bs.length →
      x.getD i false = (s.bs.getD i false ^^ (ksBits s.bs.length s.lfsr).1.getD i false)) ∧
    l.kscount.toNat = (s.lfsr.kscount.toNat + s.bs.length) % 2 ^ 32)

/-- R87. -/
def Obligations.CryptCombinesOneSymbolWithKeystream : Prop :=
  (∀ c : Symbol, encode (.crypt c) = 0x41000000#32 + c.setWidth 32) ∧
  (∀ v : Word, v.extractLsb' 24 8 = 0x41#8 → v.extractLsb' 8 16 ≠ 0#16 → RaisesIllegalCommand v) ∧
  (∀ (c : Symbol) (s : State), s.error.err = false → s.lfsr.seeded = false →
    exec (.crypt c) s = .next (s.failed 9#4 (encode (.crypt c)))) ∧
  (∀ (c : Symbol) (s : State), s.error.err = false → s.lfsr.seeded = true → s2i c = none →
    exec (.crypt c) s = .next (s.failed 2#4 (encode (.crypt c)))) ∧
  (∀ (c : Symbol) (g : Group) (s : State), s.lfsr.seeded = true → s2i c = some g →
    ∃ ks : Group, exec (.crypt c) s = .next { s with lfsr := (ksBits 6 s.lfsr).2, dout := (i2s (g ^^^ ks)).setWidth 32 } ∧
      ks.toNat = (ksBits 6 s.lfsr).1.foldl (fun v b => 2 * v + b.toNat) 0 ∧
      (ksBits 6 s.lfsr).2.kscount.toNat = (s.lfsr.kscount.toNat + 6) % 2 ^ 32)

/-- R87, R89: CRYPT of CRYPT's output from the same keystream position gives the symbol back, and leaves the same generator. -/
def Obligations.CryptIsItsOwnInverse : Prop :=
  ∀ (c : Symbol) (g : Group) (s : State), s.lfsr.seeded = true → s2i c = some g →
    ∃ (d : Symbol) (l : Lfsr s.params.nmax), exec (.crypt c) s = .next { s with lfsr := l, dout := d.setWidth 32 } ∧
      exec (.crypt d) s = .next { s with lfsr := l, dout := c.setWidth 32 }

/-- R86, R89: SXOR of SXOR's output from the same keystream position gives the buffer back. -/
def Obligations.SxorIsItsOwnInverse : Prop :=
  ∀ s : State, s.lfsr.seeded = true → ∃ (x : BitSeq) (l : Lfsr s.params.nmax),
    exec .sxor s = .next { s with bs := x, lfsr := l } ∧ exec .sxor { s with bs := x } = .next { s with lfsr := l }

/-- R93: under the same keystream bits, the XOR of two ciphertext groups is the XOR of the two plaintext groups. -/
def Obligations.KeystreamReuseShowsPlaintextXor : Prop :=
  ∀ (c c' : Symbol) (g g' : Group) (s : State), s.lfsr.seeded = true → s2i c = some g → s2i c' = some g' →
    ∃ (d d' : Symbol) (h h' : Group) (l : Lfsr s.params.nmax),
      exec (.crypt c) s = .next { s with lfsr := l, dout := d.setWidth 32 } ∧
      exec (.crypt c') s = .next { s with lfsr := l, dout := d'.setWidth 32 } ∧
      s2i d = some h ∧ s2i d' = some h' ∧ h ^^^ h' = g ^^^ g'

/-- R115: SXOR of a buffer in two chunks, without a LOAD in between, equals SXOR of the whole. -/
def Obligations.SxorInChunksEqualsOneShot : Prop :=
  ∀ (s : State) (a b : BitSeq), s.lfsr.seeded = true → ∃ (x y : BitSeq) (l l' : Lfsr s.params.nmax),
    exec .sxor { s with bs := a } = .next { s with bs := x, lfsr := l } ∧
    exec .sxor { s with bs := b, lfsr := l } = .next { s with bs := y, lfsr := l' } ∧
    exec .sxor { s with bs := a ++ b } = .next { s with bs := x ++ y, lfsr := l' }

/-! ## Errors (60_exceptions.md) -/

/-- R99: a command issue that raises an error changes the error record and BUSY and nothing else, and the record holds a code, the offset
of CMD and the word written. -/
def Obligations.ErrorsArePrecise : Prop :=
  ∀ (s t : State) (v : Word), s.busy = false → s.error.err = false → hostWrite 2#10 v s = .next t → t.error.err = true →
    ∃ code : BitVec 4, 1 ≤ code.toNat ∧ code.toNat ≤ 10 ∧ t = ({ s with busy := true } : State).failed code v

/-- R101: which one error a write of a command's word to CMD reports. -/
def Obligations.FirstApplicableErrorIsReported : Prop :=
  (∀ (s : State) (a : WordOffset) (v : Word), s.busy = true → s.error.err = false →
    ∃ t, hostWrite a v s = .next t ∧ t.error.ecode = 11#4) ∧
  (∀ (s : State) (v : Word), s.busy = false → s.error.err = true → v ≠ 0x01000000#32 → v ≠ 0x02000000#32 →
    ∃ t, hostWrite 2#10 v s = .next t ∧ t.error = s.error) ∧
  (∀ (s : State) (v : Word) (e : IllegalWord), s.busy = false → s.error.err = false → decode v = .error e →
    ∃ t, hostWrite 2#10 v s = .next t ∧ t.error.ecode = 1#4) ∧
  (∀ s : State, s.busy = false → s.error.err = false →
    let reports (i : Instr) (code : BitVec 4) : Prop :=
      hostWrite 2#10 (encode i) s = .next (({ s with busy := true } : State).failed code (encode i))
    (s.lfsr.seeded = false → reports .step 9#4 ∧ reports .sxor 9#4 ∧ (∀ w, w.toNat ≤ 32 → reports (.gen w) 9#4) ∧
      ∀ c, reports (.crypt c) 9#4) ∧
    (∀ n k : LfsrIndex, n.toNat = 0 → reports (.load n k) 6#4) ∧
    (∀ n k : LfsrIndex, s.params.nmax < n.toNat → reports (.load n k) 8#4) ∧
    (∀ n k : LfsrIndex, 1 ≤ n.toNat → n.toNat ≤ s.params.nmax → n.toNat ≤ k.toNat → reports (.load n k) 7#4) ∧
    (∀ c, s2i c = none → reports (.s2b c) 2#4 ∧ reports (.spush c) 2#4 ∧ (s.lfsr.seeded = true → reports (.crypt c) 2#4)) ∧
    (∀ w : BitCount, w.toNat < 32 → 2 ^ w.toNat ≤ s.din.toNat → reports (.i2b w) 4#4 ∧ reports (.bpush w) 4#4) ∧
    (∀ la lb : BitCount, la.toNat ≤ 32 → lb.toNat ≤ 32 → la ≠ lb → reports (.xor la lb) 5#4) ∧
    (∀ c g, s2i c = some g → s.params.bsmax < s.bs.length + 6 → reports (.spush c) 10#4) ∧
    (∀ w : BitCount, w.toNat ≤ 32 → (w.toNat = 32 ∨ s.din.toNat < 2 ^ w.toNat) → s.params.bsmax < s.bs.length + w.toNat →
      reports (.bpush w) 10#4) ∧
    (s.bs.length < 6 → reports .spop 3#4) ∧
    (∀ w : BitCount, w.toNat ≤ 32 → s.bs.length < w.toNat → reports (.bpop w) 3#4) ∧
    (s.bs.length % 6 ≠ 0 → reports .schk 3#4))

/-- R27, R28, R29, R31, R32, R33: which commands' rules may write which state element. This speaks of a command's rule alone, exec: that
BUSY is set by the issue (R42) and not by the rule is the model's choice (log 7); every issue sets it. No rule but SOFTRESET's writes
SEED, DIN or DINB; only LOAD and the keystream commands (and SOFTRESET) change the generator; only the stream commands (and SOFTRESET) change BS; only
commands with a result (and SOFTRESET) change DOUT; only CLRERR and SOFTRESET change a recorded error, and a new one names the command;
no rule changes BUSY, the parameters, or the model's own fields. -/
def Obligations.CommandsWriteOnlyTheirElements : Prop :=
  ∀ (i : Instr) (s t : State), exec i s = .next t →
    t.params = s.params ∧ t.busy = s.busy ∧ t.pending = s.pending ∧ t.reads = s.reads ∧ t.draws = s.draws ∧
    (i ≠ .clrerr → i ≠ .softreset →
      t.error = s.error ∨ (s.error.err = false ∧ t.error.err = true ∧ t.error.eoff = 8#12 ∧ t.error.ecmd = encode i)) ∧
    (i ≠ .softreset → t.din = s.din ∧ t.dinb = s.dinb ∧ ∀ b, t.seed.getLsbD b = s.seed.getLsbD b) ∧
    (i.row ∉ [Row.softreset, .load, .step, .gen, .sxor, .crypt] → (∀ b, t.lfsr.st.getLsbD b = s.lfsr.st.getLsbD b) ∧
      t.lfsr.an = s.lfsr.an ∧ t.lfsr.ak = s.lfsr.ak ∧ t.lfsr.seeded = s.lfsr.seeded ∧ t.lfsr.kscount = s.lfsr.kscount) ∧
    (i.row ∉ [Row.softreset, .load] →
      t.lfsr.an = s.lfsr.an ∧ t.lfsr.ak = s.lfsr.ak ∧ t.lfsr.seeded = s.lfsr.seeded) ∧
    (i.row ∉ [Row.softreset, .spush, .spop, .bpush, .bpop, .sclr, .sxor] → t.bs = s.bs) ∧
    (i.row ∉ [Row.softreset, .step, .gen, .s2b, .b2s, .i2b, .spop, .bpop, .schk, .xor, .crypt] → t.dout = s.dout)

/-! ## Laws of the generator (42_lfsr.md) -/

/-- R80: the degenerate tap is accepted and shown in STATUS.DEGEN, its keystream is all zeros, ST is 0 after at most AN steps, and XOR
with it changes nothing. -/
def Obligations.DegenerateTapGivesZeroKeystream : Prop :=
  (∀ (n k : LfsrIndex) (s : State), 1 ≤ n.toNat → n.toNat ≤ s.params.nmax → k.toNat + 1 = n.toNat →
    ∃ l : Lfsr s.params.nmax, exec (.load n k) s = .next { s with lfsr := l } ∧ l.Ready ∧ l.ak.toNat + 1 = l.an.toNat) ∧
  (∀ (w : Nat) (l : Lfsr w) (n : Nat), l.Ready → l.ak.toNat + 1 = l.an.toNat →
    (ksBits n l).1 = List.replicate n false ∧ (l.an.toNat ≤ n → (ksBits n l).2.st = 0#w)) ∧
  (∀ s : State, s.lfsr.Ready → s.lfsr.ak.toNat + 1 = s.lfsr.an.toNat →
    (statusWord s).getLsbD 3 = true ∧
    (∃ l : Lfsr s.params.nmax, exec .sxor s = .next { s with lfsr := l }) ∧
    (∀ (c : Symbol) (g : Group), s2i c = some g →
      ∃ l : Lfsr s.params.nmax, exec (.crypt c) s = .next { s with lfsr := l, dout := c.setWidth 32 }))

/-- R81: with s_0, ..., s_(N-1) the register's elements and s_(N+t) the t-th keystream bit, every s_n with n >= N is
s_(n-1) xor s_(n-N+K), and before the t-th step ST[i] = s_(t+i). -/
def Obligations.KeystreamIsALinearRecurrence : Prop :=
  ∀ (w : Nat) (l : Lfsr w) (T : Nat), l.Ready →
    let N := l.an.toNat
    let s : BitSeq := ((List.range N).map fun i => l.st.getLsbD i) ++ (ksBits T l).1
    (∀ n, N ≤ n → n < N + T → s.getD n false = (s.getD (n - 1) false ^^ s.getD (n - N + l.ak.toNat) false)) ∧
    (∀ t, t ≤ T → ∀ i, i < N → (ksBits t l).2.st.getLsbD i = s.getD (t + i) false)

/-- R82, R114: what a LOAD with the same N, K and low N seed bits leads to is the same keystream and the same register, whatever else the
two states (and their instances) differ in; and a LOAD issued again after keystream bits were taken restarts it. -/
def Obligations.KeystreamDependsOnlyOnSeedLengthAndTap : Prop :=
  (∀ (s s' : State) (n k : LfsrIndex), 1 ≤ n.toNat → n.toNat ≤ s.params.nmax → n.toNat ≤ s'.params.nmax → k.toNat < n.toNat →
    (∀ i, i < n.toNat → s.seed.getLsbD i = s'.seed.getLsbD i) →
    ∃ (l : Lfsr s.params.nmax) (l' : Lfsr s'.params.nmax),
      exec (.load n k) s = .next { s with lfsr := l } ∧ exec (.load n k) s' = .next { s' with lfsr := l' } ∧
      ∀ m, (ksBits m l).1 = (ksBits m l').1 ∧ (ksBits m l).2.kscount = (ksBits m l').2.kscount ∧
        ∀ i, (ksBits m l).2.st.getLsbD i = (ksBits m l').2.st.getLsbD i) ∧
  (∀ (s : State) (n k : LfsrIndex) (m : Nat), 1 ≤ n.toNat → n.toNat ≤ s.params.nmax → k.toNat < n.toNat →
    ∃ l : Lfsr s.params.nmax, exec (.load n k) s = .next { s with lfsr := l } ∧
      exec (.load n k) { s with lfsr := (ksBits m l).2 } = .next { s with lfsr := l })

/-- R83: an all-zero register stays 0 and its keystream is all zeros, for every tap; LOAD accepts a seed of N zeros. -/
def Obligations.AllZeroRegisterStaysZero : Prop :=
  (∀ (w : Nat) (l : Lfsr w), l.Ready → (∀ i, i < l.an.toNat → l.st.getLsbD i = false) →
    (ksBit l).1 = false ∧ (ksBit l).2.st = 0#w) ∧
  (∀ (s : State) (n k : LfsrIndex), (∀ i, i < n.toNat → s.seed.getLsbD i = false) → 1 ≤ n.toNat → n.toNat ≤ s.params.nmax → k.toNat < n.toNat →
    ∃ l : Lfsr s.params.nmax, exec (.load n k) s = .next { s with lfsr := l } ∧
      ∀ m, (ksBits m l).1 = List.replicate m false)

/-- R84: for AK = 0 and AN >= 2 the step map is a bijection on AN-bit registers, the dropped bit being ST'[AN-1] xor ST'[AN-2], and two
different registers give different keystreams. -/
def Obligations.StepMapIsBijectiveForTapZero : Prop :=
  (∀ (w : Nat) (l : Lfsr w), l.Ready → 2 ≤ l.an.toNat → l.ak.toNat = 0 →
    l.st.getLsbD 0 = ((ksBit l).2.st.getLsbD (l.an.toNat - 1) ^^ (ksBit l).2.st.getLsbD (l.an.toNat - 2))) ∧
  (∀ (w : Nat) (l l' : Lfsr w), l.Ready → l'.Ready → l.an = l'.an → 2 ≤ l.an.toNat → l.ak.toNat = 0 → l'.ak.toNat = 0 →
    (ksBit l).2.st = (ksBit l').2.st → l.st = l'.st) ∧
  (∀ (w : Nat) (l : Lfsr w), l.Ready → 2 ≤ l.an.toNat → l.ak.toNat = 0 →
    ∃ x : BitVec w, ({ l with st := x } : Lfsr w).Ready ∧ (ksBit { l with st := x }).2.st = l.st) ∧
  (∀ (w : Nat) (l l' : Lfsr w), l.Ready → l'.Ready → l.an = l'.an → 2 ≤ l.an.toNat → l.ak.toNat = 0 → l'.ak.toNat = 0 →
    l.st ≠ l'.st → (ksBits l.an.toNat l).1 ≠ (ksBits l.an.toNat l').1)

/-- R84: for AK >= 1, or AN = 1, two registers that differ only in element 0 step to the same register and emit the same bit, so they
give the same keystream: element 0 of the seed never reaches it. -/
def Obligations.FirstElementNeverReachesKeystream : Prop :=
  ∀ (w : Nat) (l l' : Lfsr w), l.Ready → l'.Ready → l.an = l'.an → l.ak = l'.ak → (1 ≤ l.ak.toNat ∨ l.an.toNat = 1) →
    (∀ i, 1 ≤ i → l.st.getLsbD i = l'.st.getLsbD i) →
    (ksBit l).2.st = (ksBit l').2.st ∧ ∀ m, (ksBits m l).1 = (ksBits m l').1

/-! ## Messages (41_stream.md, 43_xor_crypt.md) -/

/-- R74, R75: a message pushed symbol by symbol into an empty buffer is counted and popped back as it was. -/
def Obligations.PushedMessagePopsBack : Prop :=
  ∀ (s : State) (msg : List Symbol), 6 * msg.length ≤ s.params.bsmax → (∀ c ∈ msg, s2i c ≠ none) →
    (execAll (.sclr :: (msg.map .spush ++ .schk :: List.replicate msg.length .spop)) s).1.drop (msg.length + 1) =
      BitVec.ofNat 32 msg.length :: msg.map fun c => c.setWidth 32

/-- R88: encrypting a message through the stream buffer and encrypting it symbol by symbol give the same output and leave the same
generator. -/
def Obligations.StreamPathEqualsSymbolPath : Prop :=
  ∀ (s : State) (n k : LfsrIndex) (msg : List Symbol), 1 ≤ n.toNat → n.toNat ≤ s.params.nmax → k.toNat < n.toNat →
    6 * msg.length ≤ s.params.bsmax → (∀ c ∈ msg, s2i c ≠ none) →
    ∃ (l : Lfsr s.params.nmax) (d d' : Word) (out : List Word),
      (execAll (.load n k :: .sclr :: (msg.map .spush ++ .sxor :: .schk :: List.replicate msg.length .spop)) s).2 =
        { s with lfsr := l, bs := [], dout := d } ∧
      (execAll (.load n k :: .sclr :: (msg.map .spush ++ .sxor :: .schk :: List.replicate msg.length .spop)) s).1.drop
        (msg.length + 4) = out ∧
      execAll (.load n k :: msg.map .crypt) s = (s.dout :: out, { s with lfsr := l, dout := d' })

/-- R89: a message encrypted under a seed, N and K, and its ciphertext encrypted again under the same, gives the message back, with no
error recorded, for every legal N and K, the degenerate tap among them. Both directions go symbol by symbol through CRYPT; for the stream
path it follows with StreamPathEqualsSymbolPath. -/
def Obligations.DecryptionGivesTheMessageBack : Prop :=
  ∀ (s : State) (n k : LfsrIndex) (msg : List Symbol), 1 ≤ n.toNat → n.toNat ≤ s.params.nmax → k.toNat < n.toNat →
    (∀ c ∈ msg, s2i c ≠ none) →
    ∃ (cipher : List Symbol) (t u : State),
      execAll (.load n k :: msg.map .crypt) s = (s.dout :: cipher.map (fun c => c.setWidth 32), t) ∧
      execAll (.load n k :: cipher.map .crypt) t = (t.dout :: msg.map (fun c => c.setWidth 32), u) ∧
      t.error = s.error ∧ u.error = s.error
end

