-- ==== Sys2Proof/Laws/Encoding.lean ====
section
/-! SUPPORT. Fields of the words the encoder writes, and the rows of the opcode map. -/

namespace Sys2Proof

/-! ## Rows -/

@[simp] theorem Row.ofOpc_opc (r : Row) : Row.ofOpc r.opc = some r := by cases r <;> decide

theorem Row.opc_of_ofOpc {opc : BitVec 8} {r : Row} (h : Row.ofOpc opc = some r) : r.opc = opc := by
  simpa using List.find?_some h

theorem Row.opc_injective {r r' : Row} (h : r.opc = r'.opc) : r = r' :=
  Option.some.inj (by rw [← Row.ofOpc_opc r, h, Row.ofOpc_opc])

/-! ## Words of each format, as numbers (R53) -/

theorem toNat_zWord (opc : BitVec 8) : (zWord opc).toNat = opc.toNat * 2 ^ 24 := by
  simp only [zWord, BitVec.toNat_append, BitVec.toNat_ofNat, Nat.zero_mod, Nat.or_zero, Nat.shiftLeft_eq]

theorem toNat_sWord (opc : BitVec 8) (sym : Symbol) : (sWord opc sym).toNat = opc.toNat * 2 ^ 24 + sym.toNat := by
  have := sym.isLt
  simp only [sWord, BitVec.toNat_append, BitVec.toNat_ofNat, Nat.zero_mod, Nat.or_zero]
  rw [← Nat.shiftLeft_add_eq_or_of_lt this, Nat.shiftLeft_eq, Nat.shiftLeft_eq]
  omega

theorem toNat_gWord (opc : BitVec 8) (grp : Group) : (gWord opc grp).toNat = opc.toNat * 2 ^ 24 + grp.toNat := by
  have := grp.isLt
  simp only [gWord, BitVec.toNat_append, BitVec.toNat_ofNat, Nat.zero_mod, Nat.or_zero]
  rw [← Nat.shiftLeft_add_eq_or_of_lt this, Nat.shiftLeft_eq, Nat.shiftLeft_eq]
  omega

theorem toNat_wWord (opc : BitVec 8) (w : BitCount) : (wWord opc w).toNat = opc.toNat * 2 ^ 24 + w.toNat := toNat_gWord opc w

theorem toNat_lWord (opc : BitVec 8) (n k : LfsrIndex) :
    (lWord opc n k).toNat = opc.toNat * 2 ^ 24 + k.toNat * 2 ^ 10 + n.toNat := by
  have hn := n.isLt
  have hk := k.isLt
  simp only [lWord, BitVec.toNat_append, BitVec.toNat_ofNat, Nat.zero_mod, Nat.or_zero]
  rw [← Nat.shiftLeft_add_eq_or_of_lt hn, ← Nat.shiftLeft_add_eq_or_of_lt hk]
  simp only [Nat.shiftLeft_eq]
  omega

theorem toNat_xWord (opc : BitVec 8) (la lb : BitCount) :
    (xWord opc la lb).toNat = opc.toNat * 2 ^ 24 + lb.toNat * 2 ^ 6 + la.toNat := by
  have ha := la.isLt
  have hb := lb.isLt
  simp only [xWord, BitVec.toNat_append, BitVec.toNat_ofNat, Nat.zero_mod, Nat.or_zero]
  rw [← Nat.shiftLeft_add_eq_or_of_lt ha, ← Nat.shiftLeft_add_eq_or_of_lt hb]
  simp only [Nat.shiftLeft_eq]
  omega

/-! ## Fields of a word, as numbers (R52, R53) -/

theorem toNat_opcField (v : Word) : (opcField v).toNat = v.toNat / 2 ^ 24 := by
  have := v.isLt
  simp only [opcField, BitVec.extractLsb'_toNat, Nat.shiftRight_eq_div_pow]
  omega

theorem toNat_reservedField (f : Format) (v : Word) :
    reservedField f v = v.toNat / 2 ^ f.operandBits % 2 ^ (24 - f.operandBits) := by
  simp only [reservedField, BitVec.extractLsb'_toNat, Nat.shiftRight_eq_div_pow]

theorem toNat_symField (v : Word) : (symField v).toNat = v.toNat % 2 ^ 8 := by
  simp [symField, BitVec.extractLsb'_toNat]

theorem toNat_grpField (v : Word) : (grpField v).toNat = v.toNat % 2 ^ 6 := by
  simp [grpField, BitVec.extractLsb'_toNat]

theorem toNat_countField (v : Word) : (countField v).toNat = v.toNat % 2 ^ 6 := by
  simp [countField, BitVec.extractLsb'_toNat]

theorem toNat_countBField (v : Word) : (countBField v).toNat = v.toNat / 2 ^ 6 % 2 ^ 6 := by
  simp [countBField, BitVec.extractLsb'_toNat, Nat.shiftRight_eq_div_pow]

theorem toNat_nField (v : Word) : (nField v).toNat = v.toNat % 2 ^ 10 := by
  simp [nField, BitVec.extractLsb'_toNat]

theorem toNat_kField (v : Word) : (kField v).toNat = v.toNat / 2 ^ 10 % 2 ^ 10 := by
  simp [kField, BitVec.extractLsb'_toNat, Nat.shiftRight_eq_div_pow]

/-! ## The decoder's cases (R56) -/

/-- What it takes for a word to decode to a command: a row with its opcode, no reserved bit, legal counts. -/
theorem decode_eq_ok_iff (v : Word) (i : Instr) :
    decode v = .ok i ↔ ∃ r : Row, opcField v = r.opc ∧ reservedField r.format v = 0 ∧ i = r.build v ∧ i.wellFormed = true := by
  constructor
  · intro h
    unfold decode at h
    split at h
    · cases h
    · rename_i r hr
      split at h
      · cases h
      · rename_i hres
        split at h
        · rename_i hw
          cases h
          exact ⟨r, (Row.opc_of_ofOpc hr).symm, Decidable.not_not.mp hres, rfl, hw⟩
        · cases h
  · rintro ⟨r, hopc, hres, rfl, hw⟩
    simp [decode, hopc, hres, hw]

end Sys2Proof
end

