-- ==== Sys2Proof/Laws/Operands.lean ====
section
/-! SUPPORT. Lemmas about bit sequences, the alphabet tables and the 32-bit windows. -/

namespace Sys2Proof.Machine

/-! ## Bit sequences -/

@[simp] theorem seqMSB_length (v w : Nat) : (seqMSB v w).length = w := by
  induction w with
  | zero => rfl
  | succ w ih => simp [seqMSB, ih]

theorem valMSB_lt (s : BitSeq) : valMSB s < 2 ^ s.length := by
  induction s with
  | nil => simp [valMSB]
  | cons b s ih =>
    have hb : b.toNat ≤ 1 := by cases b <;> simp
    have h : b.toNat * 2 ^ s.length ≤ 2 ^ s.length := by simpa using Nat.mul_le_mul_right (2 ^ s.length) hb
    simp only [valMSB, List.length_cons, Nat.pow_succ]
    omega

/-- The value of a sequence that grows at its end doubles and takes the new bit: the loop of GEN and CRYPT (R79, R87). -/
theorem valMSB_append (s t : BitSeq) : valMSB (s ++ t) = valMSB s * 2 ^ t.length + valMSB t := by
  induction s with
  | nil => simp [valMSB]
  | cons b s ih => simp [valMSB, ih, Nat.pow_add, Nat.add_mul, Nat.mul_assoc, Nat.add_assoc]

theorem valMSB_seqMSB (v w : Nat) : valMSB (seqMSB v w) = v % 2 ^ w := by
  induction w with
  | zero => simp [seqMSB, valMSB, Nat.mod_one]
  | succ w ih =>
    simp [seqMSB, valMSB, ih, Nat.mod_pow_succ, Nat.toNat_testBit, Nat.mul_comm, Nat.add_comm]

theorem foldl_bits (s : BitSeq) (v : Nat) : s.foldl (fun v b => 2 * v + b.toNat) v = v * 2 ^ s.length + valMSB s := by
  induction s generalizing v with
  | nil => simp [valMSB]
  | cons b s ih =>
    simp only [List.foldl_cons, ih, valMSB, List.length_cons, Nat.pow_succ, Nat.add_mul]
    rw [Nat.mul_comm 2 v, Nat.mul_assoc, Nat.mul_comm 2, Nat.add_assoc]

/-- Element i of `seqMSB(v, w)` is bit w-1-i of v (R11). -/
theorem getElem?_seqMSB (v w i : Nat) (h : i < w) : (seqMSB v w)[i]? = some (v.testBit (w - 1 - i)) := by
  induction w generalizing i with
  | zero => omega
  | succ w ih =>
    cases i with
    | zero => simp [seqMSB]
    | succ i =>
      simp only [seqMSB, List.getElem?_cons_succ]
      rw [ih i (by omega)]
      congr 2
      omega

/-- Bit i of `valMSB(s)` is the i-th element from the end (R11). -/
theorem testBit_valMSB (s : BitSeq) (i : Nat) (h : i < s.length) : (valMSB s).testBit i = s.getD (s.length - 1 - i) false := by
  induction s with
  | nil => simp at h
  | cons b s ih =>
    simp only [valMSB, List.length_cons] at *
    rw [Nat.mul_comm, Nat.testBit_two_pow_mul_add _ (valMSB_lt s)]
    split
    · rename_i h1
      have : s.length + 1 - 1 - i = (s.length - 1 - i) + 1 := by omega
      rw [ih h1, this]
      simp
    · have : i = s.length := by omega
      subst this
      cases b <;> simp

/-- The condition of Overflow (R66, R70). -/
theorem overflows_iff (w : BitCount) (v : Word) : overflows w v = true ↔ w.toNat < 32 ∧ 2 ^ w.toNat ≤ v.toNat := decide_eq_true_iff

@[simp] theorem xorSeq_length (a b : BitSeq) : (xorSeq a b).length = min a.length b.length := by simp [xorSeq]

theorem xorSeq_append (a b c d : BitSeq) (h : a.length = c.length) : xorSeq (a ++ b) (c ++ d) = xorSeq a c ++ xorSeq b d := by
  simp [xorSeq, List.zipWith_append h]

/-- Combining twice with the same sequence gives the first one back. -/
theorem xorSeq_xorSeq (a b : BitSeq) (h : a.length = b.length) : xorSeq (xorSeq a b) b = a := by
  induction a generalizing b with
  | nil => rfl
  | cons x a ih =>
    cases b with
    | nil => simp at h
    | cons y b =>
      have := ih b (by simpa using h)
      simp only [xorSeq, List.zipWith_cons_cons] at this ⊢
      rw [this]
      cases x <;> cases y <;> rfl

theorem getLsbD_lowMask (n i : Nat) (h : n ≤ 32) : (lowMask n).getLsbD i = decide (i < n) := by
  have : (2 : Nat) ^ n ≤ 2 ^ 32 := Nat.pow_le_pow_right (by decide) h
  simp only [lowMask, BitVec.getLsbD_ofNat, Nat.testBit_two_pow_sub_one]
  by_cases hi : i < n
  · have : i < 32 := by omega
    simp [hi, this]
  · simp [hi]

/-! ## Windows -/

theorem getLsbD_getWord {w : Nat} (r : BitVec w) (j b : Nat) :
    (getWord r j).getLsbD b = (decide (b < 32) && r.getLsbD (32 * j + b)) := by
  simp [getWord]

theorem getLsbD_lowBits {w : Nat} (n : Nat) (r : BitVec w) (i : Nat) :
    (lowBits n r).getLsbD i = (decide (i < n) && r.getLsbD i) := by
  by_cases h : i < w
  · simp [lowBits, h]
  · simp [lowBits, h, BitVec.getLsbD_of_ge r i (by omega)]

theorem getLsbD_setWord {w : Nat} (r : BitVec w) (j : Nat) (v : Word) (b : Nat) (hb : b < w) :
    (setWord r j v).getLsbD b = if 32 * j ≤ b ∧ b < 32 * j + 32 then v.getLsbD (b - 32 * j) else r.getLsbD b := by
  have key : (0xFFFFFFFF#32).getLsbD (b - 32 * j) = decide (b - 32 * j < 32) := by
    have : (0xFFFFFFFF#32) = BitVec.allOnes 32 := by decide
    rw [this, BitVec.getLsbD_allOnes]
  by_cases h1 : b < 32 * j
  · have : ¬ 32 * j ≤ b := by omega
    simp [setWord, hb, h1, this]
  · have h2 : 32 * j ≤ b := by omega
    by_cases h3 : b < 32 * j + 32
    · have h4 : b - 32 * j < 32 := by omega
      simp [setWord, hb, h1, h2, h3, key, h4]
    · have h4 : ¬ b - 32 * j < 32 := by omega
      simp [setWord, hb, h1, h2, h3, key, h4, BitVec.getLsbD_of_ge v (b - 32 * j) (by omega)]

/-- A window read after it was written gives the word written (R31). -/
theorem getWord_setWord {w : Nat} (r : BitVec w) (j : Nat) (v : Word) (h : 32 * j + 32 ≤ w) : getWord (setWord r j v) j = v := by
  apply BitVec.eq_of_getLsbD_eq
  intro i hi
  rw [getLsbD_getWord, getLsbD_setWord _ _ _ _ (by omega), if_pos (by omega)]
  simp [hi]

/-- Writing a window twice with one word is writing it once (R43). -/
theorem setWord_setWord {w : Nat} (r : BitVec w) (j : Nat) (v : Word) : setWord (setWord r j v) j v = setWord r j v := by
  apply BitVec.eq_of_getLsbD_eq
  intro i hi
  simp only [getLsbD_setWord _ _ _ _ hi]
  split <;> rfl

end Sys2Proof.Machine
end

