-- ==== Sys2Proof/Laws/State.lean ====
section
/-! SUPPORT. One lemma per field per named update of State, true by definition, so that no later proof unfolds a record update; and the
fields recordError leaves. -/

namespace Sys2Proof.Machine

variable (s : State)

/-! ## setBusy -/

@[simp] theorem State.setBusy_params (b : Bool) : (s.setBusy b).params = s.params := rfl
@[simp] theorem State.setBusy_seed (b : Bool) : (s.setBusy b).seed = s.seed := rfl
@[simp] theorem State.setBusy_lfsr (b : Bool) : (s.setBusy b).lfsr = s.lfsr := rfl
@[simp] theorem State.setBusy_bs (b : Bool) : (s.setBusy b).bs = s.bs := rfl
@[simp] theorem State.setBusy_din (b : Bool) : (s.setBusy b).din = s.din := rfl
@[simp] theorem State.setBusy_dinb (b : Bool) : (s.setBusy b).dinb = s.dinb := rfl
@[simp] theorem State.setBusy_dout (b : Bool) : (s.setBusy b).dout = s.dout := rfl
@[simp] theorem State.setBusy_busy (b : Bool) : (s.setBusy b).busy = b := rfl
@[simp] theorem State.setBusy_error (b : Bool) : (s.setBusy b).error = s.error := rfl
@[simp] theorem State.setBusy_pending (b : Bool) : (s.setBusy b).pending = s.pending := rfl
@[simp] theorem State.setBusy_reads (b : Bool) : (s.setBusy b).reads = s.reads := rfl
@[simp] theorem State.setBusy_draws (b : Bool) : (s.setBusy b).draws = s.draws := rfl

/-! ## setDout -/

@[simp] theorem State.setDout_params (v : Word) : (s.setDout v).params = s.params := rfl
@[simp] theorem State.setDout_seed (v : Word) : (s.setDout v).seed = s.seed := rfl
@[simp] theorem State.setDout_lfsr (v : Word) : (s.setDout v).lfsr = s.lfsr := rfl
@[simp] theorem State.setDout_bs (v : Word) : (s.setDout v).bs = s.bs := rfl
@[simp] theorem State.setDout_din (v : Word) : (s.setDout v).din = s.din := rfl
@[simp] theorem State.setDout_dinb (v : Word) : (s.setDout v).dinb = s.dinb := rfl
@[simp] theorem State.setDout_dout (v : Word) : (s.setDout v).dout = v := rfl
@[simp] theorem State.setDout_busy (v : Word) : (s.setDout v).busy = s.busy := rfl
@[simp] theorem State.setDout_error (v : Word) : (s.setDout v).error = s.error := rfl
@[simp] theorem State.setDout_pending (v : Word) : (s.setDout v).pending = s.pending := rfl
@[simp] theorem State.setDout_reads (v : Word) : (s.setDout v).reads = s.reads := rfl
@[simp] theorem State.setDout_draws (v : Word) : (s.setDout v).draws = s.draws := rfl

/-! ## setBs -/

@[simp] theorem State.setBs_params (x : BitSeq) : (s.setBs x).params = s.params := rfl
@[simp] theorem State.setBs_seed (x : BitSeq) : (s.setBs x).seed = s.seed := rfl
@[simp] theorem State.setBs_lfsr (x : BitSeq) : (s.setBs x).lfsr = s.lfsr := rfl
@[simp] theorem State.setBs_bs (x : BitSeq) : (s.setBs x).bs = x := rfl
@[simp] theorem State.setBs_din (x : BitSeq) : (s.setBs x).din = s.din := rfl
@[simp] theorem State.setBs_dinb (x : BitSeq) : (s.setBs x).dinb = s.dinb := rfl
@[simp] theorem State.setBs_dout (x : BitSeq) : (s.setBs x).dout = s.dout := rfl
@[simp] theorem State.setBs_busy (x : BitSeq) : (s.setBs x).busy = s.busy := rfl
@[simp] theorem State.setBs_error (x : BitSeq) : (s.setBs x).error = s.error := rfl
@[simp] theorem State.setBs_pending (x : BitSeq) : (s.setBs x).pending = s.pending := rfl
@[simp] theorem State.setBs_reads (x : BitSeq) : (s.setBs x).reads = s.reads := rfl
@[simp] theorem State.setBs_draws (x : BitSeq) : (s.setBs x).draws = s.draws := rfl

/-! ## setLfsr -/

@[simp] theorem State.setLfsr_params (l : Lfsr s.params.nmax) : (s.setLfsr l).params = s.params := rfl
@[simp] theorem State.setLfsr_seed (l : Lfsr s.params.nmax) : (s.setLfsr l).seed = s.seed := rfl
@[simp] theorem State.setLfsr_lfsr (l : Lfsr s.params.nmax) : (s.setLfsr l).lfsr = l := rfl
@[simp] theorem State.setLfsr_bs (l : Lfsr s.params.nmax) : (s.setLfsr l).bs = s.bs := rfl
@[simp] theorem State.setLfsr_din (l : Lfsr s.params.nmax) : (s.setLfsr l).din = s.din := rfl
@[simp] theorem State.setLfsr_dinb (l : Lfsr s.params.nmax) : (s.setLfsr l).dinb = s.dinb := rfl
@[simp] theorem State.setLfsr_dout (l : Lfsr s.params.nmax) : (s.setLfsr l).dout = s.dout := rfl
@[simp] theorem State.setLfsr_busy (l : Lfsr s.params.nmax) : (s.setLfsr l).busy = s.busy := rfl
@[simp] theorem State.setLfsr_error (l : Lfsr s.params.nmax) : (s.setLfsr l).error = s.error := rfl
@[simp] theorem State.setLfsr_pending (l : Lfsr s.params.nmax) : (s.setLfsr l).pending = s.pending := rfl
@[simp] theorem State.setLfsr_reads (l : Lfsr s.params.nmax) : (s.setLfsr l).reads = s.reads := rfl
@[simp] theorem State.setLfsr_draws (l : Lfsr s.params.nmax) : (s.setLfsr l).draws = s.draws := rfl

/-! ## logRead -/

@[simp] theorem State.logRead_params (v : Word) : (s.logRead v).params = s.params := rfl
@[simp] theorem State.logRead_seed (v : Word) : (s.logRead v).seed = s.seed := rfl
@[simp] theorem State.logRead_lfsr (v : Word) : (s.logRead v).lfsr = s.lfsr := rfl
@[simp] theorem State.logRead_bs (v : Word) : (s.logRead v).bs = s.bs := rfl
@[simp] theorem State.logRead_din (v : Word) : (s.logRead v).din = s.din := rfl
@[simp] theorem State.logRead_dinb (v : Word) : (s.logRead v).dinb = s.dinb := rfl
@[simp] theorem State.logRead_dout (v : Word) : (s.logRead v).dout = s.dout := rfl
@[simp] theorem State.logRead_busy (v : Word) : (s.logRead v).busy = s.busy := rfl
@[simp] theorem State.logRead_error (v : Word) : (s.logRead v).error = s.error := rfl
@[simp] theorem State.logRead_pending (v : Word) : (s.logRead v).pending = s.pending := rfl
@[simp] theorem State.logRead_reads (v : Word) : (s.logRead v).reads = s.reads ++ [v] := rfl
@[simp] theorem State.logRead_draws (v : Word) : (s.logRead v).draws = s.draws := rfl

/-! ## drawn -/

@[simp] theorem State.drawn_params : (s.drawn).params = s.params := rfl
@[simp] theorem State.drawn_seed : (s.drawn).seed = s.seed := rfl
@[simp] theorem State.drawn_lfsr : (s.drawn).lfsr = s.lfsr := rfl
@[simp] theorem State.drawn_bs : (s.drawn).bs = s.bs := rfl
@[simp] theorem State.drawn_din : (s.drawn).din = s.din := rfl
@[simp] theorem State.drawn_dinb : (s.drawn).dinb = s.dinb := rfl
@[simp] theorem State.drawn_dout : (s.drawn).dout = s.dout := rfl
@[simp] theorem State.drawn_busy : (s.drawn).busy = s.busy := rfl
@[simp] theorem State.drawn_error : (s.drawn).error = s.error := rfl
@[simp] theorem State.drawn_pending : (s.drawn).pending = s.pending := rfl
@[simp] theorem State.drawn_reads : (s.drawn).reads = s.reads := rfl
@[simp] theorem State.drawn_draws : (s.drawn).draws = s.draws + 1 := rfl

/-! ## clearError -/

@[simp] theorem State.clearError_params : (s.clearError).params = s.params := rfl
@[simp] theorem State.clearError_seed : (s.clearError).seed = s.seed := rfl
@[simp] theorem State.clearError_lfsr : (s.clearError).lfsr = s.lfsr := rfl
@[simp] theorem State.clearError_bs : (s.clearError).bs = s.bs := rfl
@[simp] theorem State.clearError_din : (s.clearError).din = s.din := rfl
@[simp] theorem State.clearError_dinb : (s.clearError).dinb = s.dinb := rfl
@[simp] theorem State.clearError_dout : (s.clearError).dout = s.dout := rfl
@[simp] theorem State.clearError_busy : (s.clearError).busy = s.busy := rfl
@[simp] theorem State.clearError_error : (s.clearError).error = ErrorRecord.none := rfl
@[simp] theorem State.clearError_pending : (s.clearError).pending = s.pending := rfl
@[simp] theorem State.clearError_reads : (s.clearError).reads = s.reads := rfl
@[simp] theorem State.clearError_draws : (s.clearError).draws = s.draws := rfl

/-! ## clear -/

@[simp] theorem State.clear_params : (s.clear).params = s.params := rfl
@[simp] theorem State.clear_seed : (s.clear).seed = 0#_ := rfl
@[simp] theorem State.clear_lfsr : (s.clear).lfsr = Lfsr.zero _ := rfl
@[simp] theorem State.clear_bs : (s.clear).bs = [] := rfl
@[simp] theorem State.clear_din : (s.clear).din = 0#32 := rfl
@[simp] theorem State.clear_dinb : (s.clear).dinb = 0#32 := rfl
@[simp] theorem State.clear_dout : (s.clear).dout = 0#32 := rfl
@[simp] theorem State.clear_busy : (s.clear).busy = s.busy := rfl
@[simp] theorem State.clear_error : (s.clear).error = ErrorRecord.none := rfl
@[simp] theorem State.clear_pending : (s.clear).pending = s.pending := rfl
@[simp] theorem State.clear_reads : (s.clear).reads = s.reads := rfl
@[simp] theorem State.clear_draws : (s.clear).draws = s.draws := rfl

/-! ## recordError: the record, and nothing else -/

@[simp] theorem State.recordError_params (e : ErrorKind) (off : ByteOffset) (v : Word) : (s.recordError e off v).params = s.params := by
  unfold State.recordError; split <;> rfl
@[simp] theorem State.recordError_bs (e : ErrorKind) (off : ByteOffset) (v : Word) : (s.recordError e off v).bs = s.bs := by
  unfold State.recordError; split <;> rfl
@[simp] theorem State.recordError_din (e : ErrorKind) (off : ByteOffset) (v : Word) : (s.recordError e off v).din = s.din := by
  unfold State.recordError; split <;> rfl
@[simp] theorem State.recordError_dinb (e : ErrorKind) (off : ByteOffset) (v : Word) : (s.recordError e off v).dinb = s.dinb := by
  unfold State.recordError; split <;> rfl
@[simp] theorem State.recordError_dout (e : ErrorKind) (off : ByteOffset) (v : Word) : (s.recordError e off v).dout = s.dout := by
  unfold State.recordError; split <;> rfl
@[simp] theorem State.recordError_busy (e : ErrorKind) (off : ByteOffset) (v : Word) : (s.recordError e off v).busy = s.busy := by
  unfold State.recordError; split <;> rfl
@[simp] theorem State.recordError_pending (e : ErrorKind) (off : ByteOffset) (v : Word) : (s.recordError e off v).pending = s.pending := by
  unfold State.recordError; split <;> rfl
@[simp] theorem State.recordError_reads (e : ErrorKind) (off : ByteOffset) (v : Word) : (s.recordError e off v).reads = s.reads := by
  unfold State.recordError; split <;> rfl
@[simp] theorem State.recordError_draws (e : ErrorKind) (off : ByteOffset) (v : Word) : (s.recordError e off v).draws = s.draws := by
  unfold State.recordError; split <;> rfl

/-- With an error recorded already, recordError keeps the whole state (R98). -/
theorem State.recordError_of_err (e : ErrorKind) (off : ByteOffset) (v : Word) (h : s.error.err = true) :
    s.recordError e off v = s := by
  simp [State.recordError, h]

/-- With none recorded, recordError writes the record and nothing else (R98). -/
theorem State.recordError_of_no_err (e : ErrorKind) (off : ByteOffset) (v : Word) (h : s.error.err = false) :
    s.recordError e off v = { s with error := { err := true, ecode := e.code, eoff := off, ecmd := v } } := by
  simp [State.recordError, h]

end Sys2Proof.Machine
end

