-- ==== Sys2Proof/Laws/Ops.lean ====
section
/-! SUPPORT. What the shared operations do, said once: raise, the LFSR step, and runs of keystream bits. -/

namespace Sys2Proof.Machine

/-! ## raise -/

/-- raise never stops the machine: it answers the recorded state (R98). -/
theorem raise_eq (e : ErrorKind) (v : Word) (s : State) : raise e v s = .next (s.recordError e cmdByteOffset v) := rfl

/-- With no error recorded, raise records code, offset 0x008 and word, and nothing else changes (R98, R99). -/
theorem raise_of_no_err (e : ErrorKind) (v : Word) (s : State) (h : s.error.err = false) :
    raise e v s = .next (s.failed e.code v) := by
  rw [raise_eq, s.recordError_of_no_err e cmdByteOffset v h]; rfl

/-! ## The LFSR step -/

section
variable {w : Nat} (l : Lfsr w)

@[simp] theorem ksBit_fst : (ksBit l).1 = l.feedback := rfl
@[simp] theorem ksBit_an : (ksBit l).2.an = l.an := rfl
@[simp] theorem ksBit_ak : (ksBit l).2.ak = l.ak := rfl
@[simp] theorem ksBit_seeded : (ksBit l).2.seeded = l.seeded := rfl
@[simp] theorem ksBit_kscount : (ksBit l).2.kscount = l.kscount + 1#32 := rfl

/-- The bits of the register after a step, as R76's loop writes them: the new bit at AN-1, every other bit from the place above. -/
theorem getLsbD_ksBit (h : l.Ready) (i : Nat) :
    (ksBit l).2.st.getLsbD i = if i = l.an.toNat - 1 then l.feedback else l.st.getLsbD (i + 1) := by
  have hpos := h.length_pos
  have hle := h.length_le
  have hbit : ∀ j, (BitVec.ofBool l.feedback).getLsbD j = (decide (j = 0) && l.feedback) := by
    intro j
    cases j <;> simp
  by_cases hi : i = l.an.toNat - 1
  · have hw : i < w := by omega
    have hz : l.st.getLsbD (1 + i) = false := h.high_zero _ (by omega)
    have hz' : l.st.getLsbD (1 + (l.an.toNat - 1)) = false := h.high_zero _ (by omega)
    have hw' : l.an.toNat - 1 < w := by omega
    simp [ksBit, hi, hz', hw']
  · by_cases hlt : i < l.an.toNat - 1
    · simp [ksBit, hi, hlt, Nat.add_comm]
    · have h0 : i - (l.an.toNat - 1) ≠ 0 := by omega
      simp [ksBit, hi, hbit, h0, Nat.add_comm]

/-- A step keeps what R35 says of a seeded generator. -/
theorem ksBit_ready (h : l.Ready) : (ksBit l).2.Ready where
  seeded := h.seeded
  length_pos := h.length_pos
  length_le := h.length_le
  tap_lt := h.tap_lt
  high_zero i hi := by
    have hpos := h.length_pos
    rw [ksBit_an] at hi
    rw [getLsbD_ksBit l h, if_neg (by omega)]
    exact h.high_zero _ (by omega)

end

/-! ## Runs of keystream bits -/

section
variable {w : Nat}

@[simp] theorem ksBits_zero (l : Lfsr w) : ksBits 0 l = ([], l) := rfl

theorem ksBits_succ (n : Nat) (l : Lfsr w) :
    ksBits (n + 1) l = ((ksBit l).1 :: (ksBits n (ksBit l).2).1, (ksBits n (ksBit l).2).2) := rfl

@[simp] theorem ksBits_length (n : Nat) (l : Lfsr w) : (ksBits n l).1.length = n := by
  induction n generalizing l with
  | zero => rfl
  | succ n ih => simp [ksBits_succ, ih]

@[simp] theorem ksBits_an (n : Nat) (l : Lfsr w) : (ksBits n l).2.an = l.an := by
  induction n generalizing l with
  | zero => rfl
  | succ n ih => simp [ksBits_succ, ih]

@[simp] theorem ksBits_ak (n : Nat) (l : Lfsr w) : (ksBits n l).2.ak = l.ak := by
  induction n generalizing l with
  | zero => rfl
  | succ n ih => simp [ksBits_succ, ih]

@[simp] theorem ksBits_seeded (n : Nat) (l : Lfsr w) : (ksBits n l).2.seeded = l.seeded := by
  induction n generalizing l with
  | zero => rfl
  | succ n ih => simp [ksBits_succ, ih]

/-- The counter advances by one per keystream bit, modulo 2^32 (R27). -/
theorem ksBits_kscount (n : Nat) (l : Lfsr w) : (ksBits n l).2.kscount = l.kscount + BitVec.ofNat 32 n := by
  induction n generalizing l with
  | zero => simp
  | succ n ih => rw [ksBits_succ, ih, ksBit_kscount, BitVec.add_assoc, Nat.add_comm n 1, BitVec.ofNat_add]

theorem ksBits_ready (n : Nat) (l : Lfsr w) (h : l.Ready) : (ksBits n l).2.Ready := by
  induction n generalizing l with
  | zero => exact h
  | succ n ih => exact ih _ (ksBit_ready l h)

/-- A run of m + n bits is a run of m bits and then a run of n (R82, R113). -/
theorem ksBits_add (m n : Nat) (l : Lfsr w) :
    ksBits (m + n) l = ((ksBits m l).1 ++ (ksBits n (ksBits m l).2).1, (ksBits n (ksBits m l).2).2) := by
  induction m generalizing l with
  | zero => simp
  | succ m ih => rw [Nat.succ_add, ksBits_succ, ih]; simp [ksBits_succ]

end

/-- A seeded state that meets the invariants has a generator KSBIT may be called on (R35, R76). -/
theorem State.Inv.ready {s : State} (h : s.Inv) (hs : s.lfsr.seeded = true) : s.lfsr.Ready :=
  have ⟨h1, h2, h3⟩ := h.seeded_legal hs
  ⟨hs, h1, h2, h3, h.high_zero⟩

end Sys2Proof.Machine
end

