-- ==== Sys2Proof/Laws/Exec.lean ====
section
/-! SUPPORT. What a command's rule can do, said once (exec_cases), and what a host access, an issue and an event can do. -/

namespace Sys2Proof.Machine

/-! ## One lemma per meaning whose rule has cases -/

theorem execS2b_cases (sym : Symbol) (s : State) :
    (s2i sym = none ∧ execS2b sym s = raise .invalidSymbol (encode (.s2b sym)) s) ∨
    (∃ g, s2i sym = some g ∧ execS2b sym s = .next (s.setDout (g.setWidth 32))) := by
  unfold execS2b; split <;> simp_all

theorem execSpush_cases (sym : Symbol) (s : State) :
    (∃ e, e ≠ .cmdOverrun ∧ execSpush sym s = raise e (encode (.spush sym)) s) ∨
    (∃ g, s2i sym = some g ∧ s.bs.length + 6 ≤ s.params.bsmax ∧ execSpush sym s = .next (s.setBs (s.bs ++ seqMSB g.toNat 6))) := by
  unfold execSpush
  split
  · exact .inl ⟨.invalidSymbol, nofun, rfl⟩
  · split
    · exact .inl ⟨.streamFull, nofun, rfl⟩
    · rename_i g hg hfull
      exact .inr ⟨g, hg, by omega, rfl⟩

theorem execBpush_cases (w : BitCount) (s : State) :
    (∃ e, e ≠ .cmdOverrun ∧ execBpush w s = raise e (encode (.bpush w)) s) ∨
    (overflows w s.din = false ∧ s.bs.length + w.toNat ≤ s.params.bsmax ∧
      execBpush w s = .next (s.setBs (s.bs ++ seqMSB s.din.toNat w.toNat))) := by
  unfold execBpush
  split
  · exact .inl ⟨.overflow, nofun, rfl⟩
  · split
    · exact .inl ⟨.streamFull, nofun, rfl⟩
    · rename_i ho hfull
      exact .inr ⟨by simpa using ho, by omega, rfl⟩

theorem execLoad_cases (n k : LfsrIndex) (s : State) :
    (∃ e, e ≠ .cmdOverrun ∧ execLoad n k s = raise e (encode (.load n k)) s) ∨
    (1 ≤ n.toNat ∧ n.toNat ≤ s.params.nmax ∧ k.toNat < n.toNat ∧
      execLoad n k s =
        .next (s.setLfsr { st := lowBits n.toNat s.seed, an := n, ak := k, seeded := true, kscount := 0#32 })) := by
  unfold execLoad
  split
  · exact .inl ⟨.emptySeed, nofun, rfl⟩
  · split
    · exact .inl ⟨.seedTooLong, nofun, rfl⟩
    · split
      · exact .inl ⟨.tapOutOfRange, nofun, rfl⟩
      · exact .inr ⟨by omega, by omega, by omega, rfl⟩

theorem execCrypt_cases (sym : Symbol) (s : State) :
    (∃ e, e ≠ .cmdOverrun ∧ execCrypt sym s = raise e (encode (.crypt sym)) s) ∨
    (∃ g, s.lfsr.seeded = true ∧ s2i sym = some g ∧
      execCrypt sym s = .next ((s.setLfsr (ksBits 6 s.lfsr).2).setDout
        ((i2s (g ^^^ BitVec.ofNat 6 (valMSB (ksBits 6 s.lfsr).1))).setWidth 32))) := by
  unfold execCrypt
  split
  · split
    · exact .inl ⟨.invalidSymbol, nofun, rfl⟩
    · exact .inr ⟨_, ‹_›, ‹_›, rfl⟩
  · exact .inl ⟨.notSeeded, nofun, rfl⟩

/-! ## All commands -/

/-- Everything the rule of a command i can do to the state, and which commands can do it. -/
inductive ExecEffect (i : Instr) (s : State) : State → Prop where
  /-- NOP. -/
  | same (hi : i = .nop) : ExecEffect i s s
  /-- A command that raises an error: recorded with the offset of CMD and the command's word, unless one is recorded (R98). -/
  | error (e : ErrorKind) (he : e ≠ .cmdOverrun) (h : exec i s = raise e (encode i) s) :
      ExecEffect i s (s.recordError e cmdByteOffset (encode i))
  /-- CLRERR. -/
  | clearError (hi : i = .clrerr) : ExecEffect i s s.clearError
  /-- SOFTRESET. -/
  | clear (hi : i = .softreset) : ExecEffect i s s.clear
  /-- LOAD. -/
  | load (n k : LfsrIndex) (hi : i = .load n k) (hpos : 1 ≤ n.toNat) (hmax : n.toNat ≤ s.params.nmax) (htap : k.toNat < n.toNat) :
      ExecEffect i s (s.setLfsr { st := lowBits n.toNat s.seed, an := n, ak := k, seeded := true, kscount := 0#32 })
  /-- Keystream bits are taken and DOUT is written. -/
  | keystream (n : Nat) (v : Word) (hi : i.row ∈ [Row.step, .gen, .crypt]) (hs : s.lfsr.seeded = true) :
      ExecEffect i s ((s.setLfsr (ksBits n s.lfsr).2).setDout v)
  /-- DOUT is written. -/
  | result (v : Word) (hi : i.row ∈ [Row.s2b, .b2s, .i2b, .schk, .xor]) : ExecEffect i s (s.setDout v)
  /-- The buffer changes within its capacity, or shrinks. -/
  | stream (x : BitSeq) (hi : i.row ∈ [Row.spush, .bpush, .sclr]) (hx : x.length ≤ s.params.bsmax ∨ x.length ≤ s.bs.length) :
      ExecEffect i s (s.setBs x)
  /-- The buffer shrinks and DOUT is written. -/
  | pop (n : Nat) (v : Word) (hi : i.row ∈ [Row.spop, .bpop]) : ExecEffect i s ((s.setBs (s.bs.drop n)).setDout v)
  /-- The whole buffer is combined with keystream bits. -/
  | cipher (hi : i = .sxor) (hs : s.lfsr.seeded = true) :
      ExecEffect i s ((s.setLfsr (ksBits s.bs.length s.lfsr).2).setBs (xorSeq s.bs (ksBits s.bs.length s.lfsr).1))

/-- A command that raises answers the recorded state. -/
theorem exec_raise {i : Instr} {s : State} {e : ErrorKind} (he : e ≠ .cmdOverrun) (h : exec i s = raise e (encode i) s) :
    ∃ t, exec i s = .next t ∧ ExecEffect i s t :=
  ⟨_, h, .error e he h⟩

/-- A command's rule always answers a next state, and that state is one of ExecEffect's. -/
theorem exec_cases (i : Instr) (s : State) : ∃ t, exec i s = .next t ∧ ExecEffect i s t := by
  cases i with
  | nop => exact ⟨_, rfl, .same rfl⟩
  | clrerr => exact ⟨_, rfl, .clearError rfl⟩
  | softreset => exact ⟨_, rfl, .clear rfl⟩
  | load n k =>
    obtain ⟨e, he, h⟩ | ⟨h1, h2, h3, h⟩ := execLoad_cases n k s
    · exact exec_raise he h
    · exact ⟨_, h, .load n k rfl h1 h2 h3⟩
  | step =>
    by_cases hs : s.lfsr.seeded = true
    · exact ⟨_, if_pos hs, .keystream 1 _ (by simp [Instr.row]) hs⟩
    · exact exec_raise (e := .notSeeded) nofun (if_neg hs)
  | gen w =>
    by_cases hs : s.lfsr.seeded = true
    · exact ⟨_, if_pos hs, .keystream w.toNat _ (by simp [Instr.row]) hs⟩
    · exact exec_raise (e := .notSeeded) nofun (if_neg hs)
  | s2b sym =>
    obtain ⟨-, h⟩ | ⟨g, -, h⟩ := execS2b_cases sym s
    · exact exec_raise (e := .invalidSymbol) nofun h
    · exact ⟨_, h, .result _ (by simp [Instr.row])⟩
  | b2s grp => exact ⟨_, rfl, .result _ (by simp [Instr.row])⟩
  | i2b w =>
    by_cases ho : overflows w s.din = true
    · exact exec_raise (e := .overflow) nofun (if_pos ho)
    · exact ⟨_, if_neg ho, .result _ (by simp [Instr.row])⟩
  | spush sym =>
    obtain ⟨e, he, h⟩ | ⟨g, -, hfit, h⟩ := execSpush_cases sym s
    · exact exec_raise he h
    · exact ⟨_, h, .stream _ (by simp [Instr.row]) (.inl (by simpa using hfit))⟩
  | spop =>
    by_cases hl : s.bs.length < 6
    · exact exec_raise (e := .invalidBitGroupLength) nofun (if_pos hl)
    · exact ⟨_, if_neg hl, .pop 6 _ (by simp [Instr.row])⟩
  | bpush w =>
    obtain ⟨e, he, h⟩ | ⟨-, hfit, h⟩ := execBpush_cases w s
    · exact exec_raise he h
    · exact ⟨_, h, .stream _ (by simp [Instr.row]) (.inl (by simpa using hfit))⟩
  | bpop w =>
    by_cases hl : s.bs.length < w.toNat
    · exact exec_raise (e := .invalidBitGroupLength) nofun (if_pos hl)
    · exact ⟨_, if_neg hl, .pop w.toNat _ (by simp [Instr.row])⟩
  | sclr => exact ⟨_, rfl, .stream [] (by simp [Instr.row]) (.inr (Nat.zero_le _))⟩
  | schk =>
    by_cases hl : s.bs.length % 6 ≠ 0
    · exact exec_raise (e := .invalidBitGroupLength) nofun (if_pos hl)
    · exact ⟨_, if_neg hl, .result _ (by simp [Instr.row])⟩
  | sxor =>
    by_cases hs : s.lfsr.seeded = true
    · exact ⟨_, if_pos hs, .cipher rfl hs⟩
    · exact exec_raise (e := .notSeeded) nofun (if_neg hs)
  | xor la lb =>
    by_cases hl : la ≠ lb
    · exact exec_raise (e := .lengthMismatch) nofun (if_pos hl)
    · exact ⟨_, if_neg hl, .result _ (by simp [Instr.row])⟩
  | crypt sym =>
    obtain ⟨e, he, h⟩ | ⟨g, hs, -, h⟩ := execCrypt_cases sym s
    · exact exec_raise he h
    · exact ⟨_, h, .keystream 6 _ (by simp [Instr.row]) hs⟩

/-- If a rule answers t, then t is one of ExecEffect's. -/
theorem exec_effect {i : Instr} {s t : State} (h : exec i s = .next t) : ExecEffect i s t := by
  obtain ⟨t', h', he⟩ := exec_cases i s
  cases h.symm.trans h'
  exact he

/-! ## Issue, accesses and events -/

/-- What an issue does (R42). -/
theorem issue_cases (v : Word) (s : State) :
    (∃ e, decode v = .error e ∧ s.error.err = true ∧ issue v s = .next (s.setBusy true)) ∨
    (∃ e, decode v = .error e ∧ s.error.err = false ∧ issue v s = .next ((s.setBusy true).failed 1#4 v)) ∨
    (∃ i, decode v = .ok i ∧ s.error.err = true ∧ runsUnderLock i = false ∧ issue v s = .next (s.setBusy true)) ∨
    (∃ i, decode v = .ok i ∧ (s.error.err = false ∨ runsUnderLock i = true) ∧ issue v s = exec i (s.setBusy true)) := by
  unfold issue
  split
  · rename_i e he
    by_cases herr : s.error.err = true
    · exact .inl ⟨e, he, herr, by simp [herr]⟩
    · simp only [Bool.not_eq_true] at herr
      exact .inr (.inl ⟨e, he, herr, by rw [herr]; exact raise_of_no_err _ _ _ herr⟩)
  · rename_i i hi
    by_cases hlock : s.error.err = true ∧ runsUnderLock i = false
    · exact .inr (.inr (.inl ⟨i, hi, hlock.1, hlock.2, by simp [hlock.1, hlock.2]⟩))
    · refine .inr (.inr (.inr ⟨i, hi, ?_, ?_⟩))
      · cases h1 : s.error.err <;> cases h2 : runsUnderLock i <;> simp_all
      · cases h1 : s.error.err <;> cases h2 : runsUnderLock i <;> simp_all

/-- The issue of an illegal word (R56, R100). -/
theorem issue_of_error {v : Word} {e : IllegalWord} (s : State) (h : decode v = .error e) :
    issue v s = .next (if s.error.err then s.setBusy true else (s.setBusy true).failed 1#4 v) := by
  simp only [issue, h]
  by_cases herr : s.error.err = true
  · simp [herr]
  · simp only [Bool.not_eq_true] at herr
    rw [herr]
    exact raise_of_no_err _ _ _ herr

/-- The issue of a command (R42, R100). -/
theorem issue_of_ok {v : Word} {i : Instr} (s : State) (h : decode v = .ok i) :
    issue v s = if s.error.err && !runsUnderLock i then .next (s.setBusy true) else exec i (s.setBusy true) := by
  simp only [issue, h]

/-- Everything a write of a register can do while BUSY = 0 (R41). -/
inductive WriteEffect (s : State) : State → Prop where
  | ignored : WriteEffect s s
  | locked : WriteEffect s (s.setBusy true)
  | illegal (v : Word) (h : s.error.err = false) : WriteEffect s ((s.setBusy true).failed 1#4 v)
  | command {t : State} (i : Instr) (h : ExecEffect i (s.setBusy true) t) : WriteEffect s t
  | din (v : Word) : WriteEffect s { s with din := v }
  | dinb (v : Word) : WriteEffect s { s with dinb := v }
  | seed (j : Nat) (v : Word) : WriteEffect s { s with seed := setWord s.seed j v }

theorem writeReg_cases (v : Word) (s : State) (r : Reg) : ∃ t, writeReg v s r = .next t ∧ WriteEffect s t := by
  cases r
  case cmd =>
    obtain ⟨e, -, -, h⟩ | ⟨e, -, h0, h⟩ | ⟨i, -, -, -, h⟩ | ⟨i, -, -, h⟩ := issue_cases v s
    · exact ⟨_, h, .locked⟩
    · exact ⟨_, h, .illegal v h0⟩
    · exact ⟨_, h, .locked⟩
    · obtain ⟨t, ht, he⟩ := exec_cases i (s.setBusy true)
      exact ⟨t, h.trans ht, .command i he⟩
  case din => exact ⟨_, rfl, .din v⟩
  case dinb => exact ⟨_, rfl, .dinb v⟩
  case seedw j => exact ⟨_, rfl, .seed j v⟩
  all_goals exact ⟨_, rfl, .ignored⟩

/-- Everything an event can do. -/
inductive EventEffect (s : State) : State → Prop where
  /-- A read: only the model's own fields change. -/
  | read (x : List Word) (n : Nat) : EventEffect s { s with reads := x, draws := n }
  /-- A write while BUSY = 1. -/
  | dropped (a : WordOffset) (v : Word) : EventEffect s (s.recordError .cmdOverrun (byteOffset a) v)
  /-- A write while BUSY = 0. -/
  | write {t : State} (hb : s.busy = false) (h : WriteEffect s t) : EventEffect s t
  /-- The completion step. -/
  | complete : EventEffect s (s.setBusy false)
  /-- A rising edge with rst = 1. -/
  | rst (x : List Word) (n : Nat) : EventEffect s { s.clear with busy := false, reads := x, draws := n }

theorem runEvent_cases (e : Event) (s : State) : ∃ t, runEvent e s = .next t ∧ EventEffect s t := by
  cases e with
  | access a =>
    cases a with
    | read a =>
      refine ⟨_, rfl, ?_⟩
      unfold hostRead
      split
      · exact .read _ _
      · exact .read _ s.draws
    | write a v =>
      by_cases hb : s.busy = true
      · exact ⟨_, if_pos hb, .dropped a v⟩
      · obtain ⟨t, h, he⟩ := writeReg_cases v s (regAt s.params a)
        exact ⟨t, (if_neg hb).trans h, .write (by simpa using hb) he⟩
  | complete => exact ⟨_, rfl, .complete⟩
  | rst p =>
    rcases p with _ | (a | ⟨a, v⟩)
    · exact ⟨_, rfl, .rst s.reads s.draws⟩
    · exact ⟨_, rfl, .rst _ _⟩
    · exact ⟨_, rfl, .rst s.reads s.draws⟩

theorem runEvent_effect {e : Event} {s t : State} (h : runEvent e s = .next t) : EventEffect s t := by
  obtain ⟨t', h', he⟩ := runEvent_cases e s
  cases h.symm.trans h'
  exact he

/-- What a step does: the next event's effect on the state without it, or the completion step when nothing is to come. -/
theorem step_cases (s : State) :
    (s.pending = [] ∧ step s = .next (s.setBusy false)) ∨
    (∃ e rest, s.pending = e :: rest ∧ step s = runEvent e { s with pending := rest }) := by
  unfold step nextEvent
  split
  · exact .inr ⟨_, _, ‹_›, rfl⟩
  · exact .inl ⟨‹_›, rfl⟩

end Sys2Proof.Machine
end

