-- ==== Sys2Proof/Laws/PerInstr.lean ====
section
/-! SUPPORT. The family WordFields: where the encoder puts a command's opcode, and that it leaves every reserved bit 0 (30_encoding.md
R52, R53). One lemma per constructor, each from its format's. -/

namespace Sys2Proof.Laws.WordFields

/-- The command's word has its row's opcode, and its reserved bits are 0. -/
def Statement (i : Instr) : Prop :=
  opcField (encode i) = i.row.opc ∧ reservedField i.row.format (encode i) = 0

/-- A word `opc * 2^24 + x` whose operand part x fills only its format's operand bits has the opcode and no reserved bit. -/
theorem of_toNat {v : Word} {opc : BitVec 8} {f : Format} {x : Nat} (hv : v.toNat = opc.toNat * 2 ^ 24 + x)
    (hx : x < 2 ^ f.operandBits) : opcField v = opc ∧ reservedField f v = 0 := by
  rw [← BitVec.toNat_inj, toNat_opcField, toNat_reservedField, hv]
  have := opc.isLt
  cases f <;> simp only [Format.operandBits] at hx ⊢ <;> omega

theorem z_fields (opc : BitVec 8) : opcField (zWord opc) = opc ∧ reservedField .z (zWord opc) = 0 :=
  of_toNat (x := 0) (by rw [toNat_zWord, Nat.add_zero]) (by decide)

theorem s_fields (opc : BitVec 8) (sym : Symbol) : opcField (sWord opc sym) = opc ∧ reservedField .s (sWord opc sym) = 0 :=
  of_toNat (toNat_sWord opc sym) sym.isLt

theorem g_fields (opc : BitVec 8) (grp : Group) : opcField (gWord opc grp) = opc ∧ reservedField .g (gWord opc grp) = 0 :=
  of_toNat (toNat_gWord opc grp) grp.isLt

theorem w_fields (opc : BitVec 8) (w : BitCount) : opcField (wWord opc w) = opc ∧ reservedField .w (wWord opc w) = 0 :=
  of_toNat (toNat_wWord opc w) w.isLt

theorem l_fields (opc : BitVec 8) (n k : LfsrIndex) : opcField (lWord opc n k) = opc ∧ reservedField .l (lWord opc n k) = 0 :=
  of_toNat (x := k.toNat * 2 ^ 10 + n.toNat) (by rw [toNat_lWord, Nat.add_assoc])
    (by have := n.isLt; have := k.isLt; simp only [Format.operandBits]; omega)

theorem x_fields (opc : BitVec 8) (la lb : BitCount) : opcField (xWord opc la lb) = opc ∧ reservedField .x (xWord opc la lb) = 0 :=
  of_toNat (x := lb.toNat * 2 ^ 6 + la.toNat) (by rw [toNat_xWord, Nat.add_assoc])
    (by have := la.isLt; have := lb.isLt; simp only [Format.operandBits]; omega)

theorem nop : Statement (.nop) := z_fields _
theorem clrerr : Statement (.clrerr) := z_fields _
theorem softreset : Statement (.softreset) := z_fields _
theorem load (n k : LfsrIndex) : Statement (.load n k) := l_fields _ n k
theorem step : Statement (.step) := z_fields _
theorem gen (w : BitCount) : Statement (.gen w) := w_fields _ w
theorem s2b (sym : Symbol) : Statement (.s2b sym) := s_fields _ sym
theorem b2s (grp : Group) : Statement (.b2s grp) := g_fields _ grp
theorem i2b (w : BitCount) : Statement (.i2b w) := w_fields _ w
theorem spush (sym : Symbol) : Statement (.spush sym) := s_fields _ sym
theorem spop : Statement (.spop) := z_fields _
theorem bpush (w : BitCount) : Statement (.bpush w) := w_fields _ w
theorem bpop (w : BitCount) : Statement (.bpop w) := w_fields _ w
theorem sclr : Statement (.sclr) := z_fields _
theorem schk : Statement (.schk) := z_fields _
theorem sxor : Statement (.sxor) := z_fields _
theorem xor (la lb : BitCount) : Statement (.xor la lb) := x_fields _ la lb
theorem crypt (sym : Symbol) : Statement (.crypt sym) := s_fields _ sym

end Sys2Proof.Laws.WordFields
end

