-- ==== Sys2Proof/Laws/Registers.lean ====
section
/-! SUPPORT. The register map: what stands at each word offset (10_state.md R18), and what host writes do there. -/

namespace Sys2Proof.Machine

theorem seedWords_eq (p : Params) : p.seedWords = p.nmax / 32 := rfl

theorem nmax_cases (p : Params) : p.nmax = 32 ∨ p.nmax = 64 ∨ p.nmax = 128 ∨ p.nmax = 256 ∨ p.nmax = 512 := by
  obtain ⟨n, g⟩ := p
  cases n <;> simp [Params.nmax, NMax.bits]

theorem bsmax_le (p : Params) : p.bsmax ≤ 65532 := by
  have := p.extraGroups.isLt
  simp only [Params.bsmax]
  omega

theorem regAt_low (p : Params) (a : WordOffset) (r : Reg) (h : lowRegs[a.toNat]? = some r) : regAt p a = r := by
  simp [regAt, h]

theorem regAt_high (p : Params) (a : WordOffset) (h : 12 ≤ a.toNat) : regAt p a = windowReg p a.toNat := by
  have : lowRegs[a.toNat]? = none := List.getElem?_eq_none h
  simp [regAt, this]

theorem regAt_seedw (p : Params) (a : WordOffset) (j : Nat) (hj : j < p.nmax / 32) (ha : a.toNat = 64 + j) :
    regAt p a = .seedw j := by
  rw [regAt_high p a (by omega), windowReg, ha, seedWords_eq, if_pos (by omega), Nat.add_sub_cancel_left]

theorem regAt_statew (p : Params) (a : WordOffset) (j : Nat) (hj : j < p.nmax / 32) (ha : a.toNat = 128 + j) :
    regAt p a = .statew j := by
  have := nmax_cases p
  rw [regAt_high p a (by omega), windowReg, ha, seedWords_eq, if_neg (by omega), if_pos (by omega), Nat.add_sub_cancel_left]

theorem regAt_reserved (p : Params) (a : WordOffset) (h : ReservedOffset p.nmax (4 * a.toNat)) : regAt p a = .reserved := by
  have := nmax_cases p
  simp only [ReservedOffset] at h
  rw [regAt_high p a (by omega), windowReg, seedWords_eq, if_neg (by omega), if_neg (by omega)]

/-- The word offsets at which a host write can change a state element: CMD, DIN, DINB, SEEDW (R41). -/
theorem regAt_writable_iff (p : Params) (a : WordOffset) :
    (regAt p a = .cmd ↔ a.toNat = 2) ∧ (regAt p a = .din ↔ a.toNat = 8) ∧ (regAt p a = .dinb ↔ a.toNat = 9) ∧
    ∀ j, regAt p a = .seedw j ↔ j < p.nmax / 32 ∧ a.toNat = 64 + j := by
  by_cases h : 12 ≤ a.toNat
  · rw [regAt_high p a h, windowReg, seedWords_eq]
    refine ⟨?_, ?_, ?_, fun j => ?_⟩ <;> split
    all_goals first | (split <;> simp <;> omega) | (simp; omega)
  · generalize hn : a.toNat = n at h
    have hr : regAt p a = (lowRegs[n]?).getD .reserved := by
      have : n < lowRegs.length := by simp [lowRegs]; omega
      rw [regAt, hn, List.getElem?_eq_getElem this]
      rfl
    rw [hr]
    clear hr hn
    have hn : n < 12 := by omega
    clear h
    interval_cases n <;> simp [lowRegs] <;> omega

/-- A host write while BUSY = 0 reaches the register its offset names (R41). -/
theorem hostWrite_idle (a : WordOffset) (v : Word) (s : State) (hb : s.busy = false) :
    hostWrite a v s = writeReg v s (regAt s.params a) := by
  simp [hostWrite, hb]

/-- A write to CMD while BUSY = 0 is a command issue (R42). -/
theorem hostWrite_cmd (v : Word) (s : State) (hb : s.busy = false) : hostWrite 2#10 v s = issue v s := by
  rw [hostWrite_idle _ _ _ hb, regAt_low s.params 2#10 .cmd rfl]
  rfl

theorem byteOffset_eq (a : WordOffset) : byteOffset a = BitVec.ofNat 12 (4 * a.toNat) := by
  have := a.isLt
  apply BitVec.eq_of_toNat_eq
  simp only [byteOffset, BitVec.toNat_append, BitVec.toNat_ofNat, Nat.zero_mod, Nat.or_zero, Nat.shiftLeft_eq]
  omega

/-! ## Register words as numbers -/

/-- CFG (R21). -/
theorem toNat_cfgWord (p : Params) : (cfgWord p).toNat = p.bsmax * 2 ^ 16 + p.nmax := by
  have := nmax_cases p
  have := bsmax_le p
  simp only [cfgWord, BitVec.toNat_append]
  rw [← Nat.shiftLeft_add_eq_or_of_lt (BitVec.isLt _), Nat.shiftLeft_eq, BitVec.toNat_ofNat, BitVec.toNat_ofNat]
  omega

/-- BSCOUNT, for a buffer that its field can count (R30). -/
theorem toNat_bscountWord (bs : BitSeq) (h : bs.length < 2 ^ 16) : (bscountWord bs).toNat = bs.length := by
  simp only [bscountWord, BitVec.toNat_append, BitVec.toNat_ofNat, Nat.zero_mod, Nat.zero_shiftLeft, Nat.zero_or]
  omega

/-- ERRCODE (R24). -/
theorem toNat_errcodeWord (e : ErrorRecord) : (errcodeWord e).toNat = e.eoff.toNat * 2 ^ 16 + e.ecode.toNat := by
  simp only [errcodeWord, BitVec.toNat_append]
  rw [← Nat.shiftLeft_add_eq_or_of_lt e.ecode.isLt, ← Nat.shiftLeft_add_eq_or_of_lt (by decide),
    ← Nat.shiftLeft_add_eq_or_of_lt e.eoff.isLt]
  simp only [Nat.shiftLeft_eq, BitVec.toNat_ofNat]
  omega

/-- ACTIVE (R26). -/
theorem toNat_activeWord {w : Nat} (l : Lfsr w) : (activeWord l).toNat = l.ak.toNat * 2 ^ 16 + l.an.toNat := by
  simp only [activeWord, BitVec.toNat_append]
  rw [← Nat.shiftLeft_add_eq_or_of_lt l.an.isLt, ← Nat.shiftLeft_add_eq_or_of_lt (by decide),
    ← Nat.shiftLeft_add_eq_or_of_lt l.ak.isLt]
  simp only [Nat.shiftLeft_eq, BitVec.toNat_ofNat]
  omega

theorem runsUnderLock_iff (i : Instr) : runsUnderLock i = true ↔ i = .clrerr ∨ i = .softreset := by
  cases i <;> simp [runsUnderLock]

end Sys2Proof.Machine
end

