-- ==== Sys2Proof/Machine/Assembler.lean ====
section
/-! DEFINITION. The assembler syntax of 30_encoding.md R58 and the pseudo-instructions of R59, one statement a line, read from a list of
characters. It gives no meaning of its own: a statement stands for a command word or for a list of events (log 17). -/

namespace Sys2Proof.Machine

/-- A token of a line. -/
inductive Tok where
  | word (cs : List Char)
  | chr (c : Char)
  | str (cs : List Char)
  | comma
  | lbr
  | rbr
deriving DecidableEq, Repr

/-- Where the reader of a line stands: between and in words, after an opening apostrophe, after the character it quotes, in a string. -/
inductive LexMode where
  | plain
  | quote
  | quoted (c : Char)
  | str
deriving DecidableEq, Repr

/-- The word read so far, as a token before the rest. -/
def flushWord (acc : List Char) (rest : List Tok) : List Tok :=
  if acc.isEmpty then rest else .word acc.reverse :: rest

/-- The tokens of a line. A semicolon outside quotes starts a comment (R58). -/
def lex : LexMode → List Char → List Char → Option (List Tok)
  | .plain, acc, [] => some (flushWord acc [])
  | _, _, [] => none
  | .quote, _, c :: cs => lex (.quoted c) [] cs
  | .quoted q, _, c :: cs => if c.toNat = 39 then (lex .plain [] cs).map (.chr q :: ·) else none
  | .str, acc, c :: cs => if c.toNat = 34 then (lex .plain [] cs).map (.str acc.reverse :: ·) else lex .str (c :: acc) cs
  | .plain, acc, c :: cs =>
    if c.toNat = 59 then some (flushWord acc [])
    else if c.toNat = 39 then (lex .quote [] cs).map (flushWord acc)
    else if c.toNat = 34 then (lex .str [] cs).map (flushWord acc)
    else if c.toNat = 44 then (lex .plain [] cs).map fun t => flushWord acc (.comma :: t)
    else if c.toNat = 91 then (lex .plain [] cs).map fun t => flushWord acc (.lbr :: t)
    else if c.toNat = 93 then (lex .plain [] cs).map fun t => flushWord acc (.rbr :: t)
    else if c.toNat = 32 ∨ c.toNat = 9 then (lex .plain [] cs).map (flushWord acc)
    else lex .plain (c :: acc) cs

/-- The value of a digit in a base, if it is one. -/
def digit (base : Nat) (c : Char) : Option Nat :=
  let n := c.toNat
  let v := if 48 ≤ n ∧ n ≤ 57 then some (n - 48)
    else if 65 ≤ n ∧ n ≤ 70 then some (n - 55)
    else if 97 ≤ n ∧ n ≤ 102 then some (n - 87)
    else none
  v.bind fun d => if d < base then some d else none

/-- The value of digits read from the left, after the value so far. -/
def digits (base : Nat) : Nat → List Char → Option Nat
  | acc, [] => some acc
  | acc, c :: cs => (digit base c).bind fun d => digits base (base * acc + d) cs

/-- A number: hexadecimal after 0x, binary after 0b (R10), else decimal. -/
def number (cs : List Char) : Option Nat :=
  match cs with
  | [] => none
  | [c] => digits 10 0 [c]
  | [a, b] => digits 10 0 [a, b]
  | a :: b :: c :: rest =>
    if a.toNat = 48 ∧ b.toNat = 120 then digits 16 0 (c :: rest)
    else if a.toNat = 48 ∧ b.toNat = 98 then digits 2 0 (c :: rest)
    else digits 10 0 cs

/-- A number that fits a field of the given width. -/
def fieldOf (width : Nat) (t : Tok) : Option (BitVec width) :=
  match t with
  | .word cs => (number cs).bind fun n => if n < 2 ^ width then some (BitVec.ofNat width n) else none
  | _ => none

/-- A symbol operand: a quoted character or a byte (R58). DESIGN CHOICE (log 17): a quoted character from 0x80 to 0xFF stands for its
Unicode code point, for which R58 and R60 give no code, and one above 0xFF is refused. -/
def symbolOf (t : Tok) : Option Symbol :=
  match t with
  | .chr c => if c.toNat < 256 then some (BitVec.ofNat 8 c.toNat) else none
  | t => fieldOf 8 t

/-- A group operand: decimal, or 0b and six digits (R58). -/
def groupOf (t : Tok) : Option Group :=
  match t with
  | .word cs =>
    if (cs.take 2 = "0b".toList ∧ cs.length = 8) ∨ cs.all fun c => (digit 10 c).isSome then fieldOf 6 t else none
  | _ => none

/-- A statement of the syntax: a command, a host statement (R58) or a pseudo-instruction (R59). -/
inductive Stmt where
  | command (i : Instr)
  | wr (a : WordOffset) (v : Word)
  | rd (a : WordOffset)
  | wait
  | issue (i : Instr)
  | enc (c : Symbol)
  | dec (c : Symbol)
  | seedset (bits : BitSeq)
  | key (bits : BitSeq) (k : LfsrIndex)
  | spushs (msg : List Symbol)
  | spops (m : Nat)
deriving DecidableEq, Repr

/-- A command line by the format of its mnemonic (R58), refused if it has no encoding. -/
def commandOf (toks : List Tok) : Option Instr :=
  let i : Option Instr :=
    match toks with
    | [.word m] =>
      if m = "NOP".toList then some .nop
      else if m = "CLRERR".toList then some .clrerr
      else if m = "SOFTRESET".toList then some .softreset
      else if m = "STEP".toList then some .step
      else if m = "SPOP".toList then some .spop
      else if m = "SCLR".toList then some .sclr
      else if m = "SCHK".toList then some .schk
      else if m = "SXOR".toList then some .sxor
      else none
    | [.word m, a] =>
      if m = "S2B".toList then (symbolOf a).map Instr.s2b
      else if m = "SPUSH".toList then (symbolOf a).map Instr.spush
      else if m = "CRYPT".toList then (symbolOf a).map Instr.crypt
      else if m = "B2S".toList then (groupOf a).map Instr.b2s
      else if m = "GEN".toList then (fieldOf 6 a).map Instr.gen
      else if m = "I2B".toList then (fieldOf 6 a).map Instr.i2b
      else if m = "BPUSH".toList then (fieldOf 6 a).map Instr.bpush
      else if m = "BPOP".toList then (fieldOf 6 a).map Instr.bpop
      else none
    | [.word m, a, .comma, b] =>
      if m = "LOAD".toList then (fieldOf 10 a).bind fun n => (fieldOf 10 b).map fun k => Instr.load n k
      else if m = "XOR".toList then (fieldOf 6 a).bind fun la => (fieldOf 6 b).map fun lb => Instr.xor la lb
      else none
    | _ => none
  i.bind fun c => if c.wellFormed then some c else none

/-- A register operand: a name of R18, or a byte offset that is a multiple of 4, and the tokens after it. DESIGN CHOICE (log 17): the
offset form, and indices up to 63, whatever NMAX is. -/
def regOf (toks : List Tok) : Option (WordOffset × List Tok) :=
  match toks with
  | .word m :: .lbr :: .word j :: .rbr :: rest =>
    (number j).bind fun j =>
      if 64 ≤ j then none
      else if m = "SEEDW".toList then some (wordAt (0x100 + 4 * j), rest)
      else if m = "STATEW".toList then some (wordAt (0x200 + 4 * j), rest)
      else none
  | .word m :: rest =>
    if m = "ID".toList then some (wordAt 0x000, rest)
    else if m = "CFG".toList then some (wordAt 0x004, rest)
    else if m = "CMD".toList then some (wordAt 0x008, rest)
    else if m = "STATUS".toList then some (wordAt 0x00C, rest)
    else if m = "ERRCODE".toList then some (wordAt 0x010, rest)
    else if m = "ERRCMD".toList then some (wordAt 0x014, rest)
    else if m = "ACTIVE".toList then some (wordAt 0x018, rest)
    else if m = "KSCOUNT".toList then some (wordAt 0x01C, rest)
    else if m = "DIN".toList then some (wordAt 0x020, rest)
    else if m = "DINB".toList then some (wordAt 0x024, rest)
    else if m = "DOUT".toList then some (wordAt 0x028, rest)
    else if m = "BSCOUNT".toList then some (wordAt 0x02C, rest)
    else (number m).bind fun off => if off < 4096 ∧ off % 4 = 0 then some (wordAt off, rest) else none
  | _ => none

/-- A bit of a seed list: 0 or 1. -/
def bitOf (t : Tok) : Option Bool := (fieldOf 1 t).map fun b => b.getLsbD 0

/-- The elements, one or more, of a bit list up to its closing bracket, and the tokens after it. -/
def bitList : List Tok → Option (BitSeq × List Tok)
  | t :: .comma :: rest => (bitOf t).bind fun b => (bitList rest).map fun r => (b :: r.1, r.2)
  | t :: .rbr :: rest => (bitOf t).map fun b => ([b], rest)
  | _ => none

/-- The elements of a seed list after its opening bracket, and the tokens after its closing one. DESIGN CHOICE (log 19): the empty list,
n = 0, on which R59 is silent, is read. -/
def seedList : List Tok → Option (BitSeq × List Tok)
  | .rbr :: rest => some ([], rest)
  | toks => bitList toks

/-- KEY of a seed list and a tap (R59). DESIGN CHOICE (log 19): a list of 1024 or more elements is refused, since its length has no value
of the field N of LOAD. -/
def keyOf (bits : BitSeq) (k : LfsrIndex) : Option Stmt := if bits.length < 1024 then some (.key bits k) else none

/-- A line's statement (R58, R59); `some none` is an empty line. -/
def stmtOf (toks : List Tok) : Option (Option Stmt) :=
  match toks with
  | [] => some none
  | .word m :: rest =>
    if m = "WR".toList then
      (regOf rest).bind fun r =>
        match r.2 with
        | [.comma, v] => (fieldOf 32 v).map fun v => some (.wr r.1 v)
        | _ => none
    else if m = "RD".toList then (regOf rest).bind fun r => if r.2.isEmpty then some (some (.rd r.1)) else none
    else if m = "WAIT".toList then (if rest.isEmpty then some (some .wait) else none)
    else if m = "ISSUE".toList then (commandOf rest).map fun i => some (.issue i)
    else if m = "ENC".toList then
      (match rest with
       | [c] => (symbolOf c).map fun c => some (.enc c)
       | _ => none)
    else if m = "DEC".toList then
      (match rest with
       | [c] => (symbolOf c).map fun c => some (.dec c)
       | _ => none)
    else if m = "SEEDSET".toList then
      (match rest with
       | .lbr :: more => (seedList more).bind fun b => if b.2.isEmpty then some (some (.seedset b.1)) else none
       | _ => none)
    else if m = "KEY".toList then
      (match rest with
       | .lbr :: more =>
         (seedList more).bind fun b =>
           match b.2 with
           | [.comma, k] => ((fieldOf 10 k).bind fun k => keyOf b.1 k).map some
           | _ => none
       | _ => none)
    else if m = "SPUSHS".toList then
      (match rest with
       | [.str cs] => (cs.mapM fun c => symbolOf (.chr c)).map fun msg => some (.spushs msg)
       | _ => none)
    else if m = "SPOPS".toList then
      (match rest with
       | [.word n] => (number n).map fun n => some (.spops n)
       | _ => none)
    else (commandOf toks).map fun i => some (.command i)
  | _ => none

/-- One line of assembly (R58). -/
def assembleLine (line : List Char) : Option (Option Stmt) := (lex .plain [] line).bind stmtOf

/-- The events a statement stands for: a bare command is the write of its word to CMD (R59). -/
def Stmt.expand (p : Params) (polls : Nat) : Stmt → List Event
  | .command i => [wrAt 0x008 (encode i)]
  | .wr a v => [.access (.write a v)]
  | .rd a => [.access (.read a)]
  | .wait => waitSeq polls
  | .issue i => issueSeq polls i
  | .enc c => encSeq polls c
  | .dec c => decSeq polls c
  | .seedset bits => seedSetSeq p bits
  | .key bits k => keySeq p polls bits k
  | .spushs msg => spushsSeq polls msg
  | .spops m => spopsSeq polls m

/-- The events of a program, line by line; `none` if a line is not of the syntax. Every WAIT of the program has the same number of polls
(DESIGN CHOICE, log 18). -/
def assemble (p : Params) (polls : Nat) (lines : List (List Char)) : Option (List Event) :=
  (lines.mapM assembleLine).map fun stmts => (stmts.filterMap id).flatMap (Stmt.expand p polls)

end Sys2Proof.Machine
end

