-- ==== Sys2Proof/Tests/Slice0.lean ====
section
/-! SUPPORT. The model's own tests: words written out bit by bit from 30_encoding.md, ill-formed terms, vectors of 95_test_vectors.md
(named in each docstring), and for every obligation with hypotheses a concrete state and operands that meet them. -/

namespace Sys2Proof.Tests.Slice0

open Sys2Proof.Machine

/-! ## Small states -/

/-- What an outcome's next state shows. -/
def look {α : Type} (o : Host.Outcome State Fault Refusal) (f : State → α) : Option α :=
  match o with
  | .next t => some (f t)
  | .fault _ => none
  | .refused _ => none

/-- The key K52 of 95_test_vectors.md: seed 0x0D, LOAD 5, 2. -/
def k52 : State :=
  { State.reset with seed := 0x0D#64, lfsr := { st := 0x0D#64, an := 5#10, ak := 2#10, seeded := true, kscount := 0#32 } }

/-- K52's seed under the degenerate tap: LOAD 5, 4. -/
def k54 : State := { k52 with lfsr := { st := 0x0D#64, an := 5#10, ak := 4#10, seeded := true, kscount := 0#32 } }

/-- A loaded generator under the error lock, after S2B '!'. -/
def locked : State := { k52 with error := { err := true, ecode := 2#4, eoff := 8#12, ecmd := 0x20000021#32 } }

/-- A command in flight. -/
def running : State := { k52 with busy := true }

/-- A command in flight under the error lock. -/
def runningLocked : State := { locked with busy := true }

/-- The smallest instance, NMAX = 32 and BSMAX = 36. -/
def smallParams : Params := { nmaxSel := .n32, extraGroups := 0 }

/-- The smallest instance with n bits in its buffer. -/
def holding (n : Nat) : State := { State.resetOf smallParams with bs := List.replicate n true }

/-- The largest instance, NMAX = 512 and BSMAX = 65532. -/
def largeParams : Params := { nmaxSel := .n512, extraGroups := 10916 }

/-! ## The smoke test of WellFormed -/

theorem test_gen_33_is_ill_formed : (Instr.gen 33#6).wellFormed = false ∧ (Instr.gen 32#6).wellFormed = true := by decide
theorem test_i2b_33_is_ill_formed : (Instr.i2b 33#6).wellFormed = false ∧ (Instr.i2b 32#6).wellFormed = true := by decide
theorem test_bpush_63_is_ill_formed : (Instr.bpush 63#6).wellFormed = false ∧ (Instr.bpush 0#6).wellFormed = true := by decide
theorem test_bpop_33_is_ill_formed : (Instr.bpop 33#6).wellFormed = false ∧ (Instr.bpop 32#6).wellFormed = true := by decide
theorem test_xor_above_32_is_ill_formed :
    (Instr.xor 33#6 32#6).wellFormed = false ∧ (Instr.xor 32#6 33#6).wellFormed = false ∧ (Instr.xor 32#6 32#6).wellFormed = true := by
  decide

/-! ## Words written out from the formats of R53 and the opcodes of R55 -/

/-- Format Z: OPC, 24 zero bits. -/
theorem test_decode_control :
    decode 0b00000000000000000000000000000000#32 = .ok .nop ∧
    decode 0b00000001000000000000000000000000#32 = .ok .clrerr ∧
    decode 0b00000010000000000000000000000000#32 = .ok .softreset := by decide

/-- Format L: OPC, 0000, K, N (here K = 2 and N = 5, then K = 1023 and N = 512). Format W: OPC, 18 zero bits, W = 32. -/
theorem test_decode_lfsr :
    decode 0b00010000000000000000100000000101#32 = .ok (.load 5#10 2#10) ∧
    decode 0b00010000000011111111111000000000#32 = .ok (.load 512#10 1023#10) ∧
    decode 0b00010001000000000000000000000000#32 = .ok .step ∧
    decode 0b00010010000000000000000000100000#32 = .ok (.gen 32#6) := by decide

/-- Format S: OPC, 16 zero bits, SYM. Format G: OPC, 18 zero bits, GRP. -/
theorem test_decode_codec :
    decode 0b00100000000000000000000011001000#32 = .ok (.s2b 0xC8#8) ∧
    decode 0b00100001000000000000000000111110#32 = .ok (.b2s 62#6) ∧
    decode 0b00100010000000000000000000000110#32 = .ok (.i2b 6#6) := by decide

theorem test_decode_stream :
    decode 0b00110000000000000000000001001000#32 = .ok (.spush 0x48#8) ∧
    decode 0b00110001000000000000000000000000#32 = .ok .spop ∧
    decode 0b00110010000000000000000000000101#32 = .ok (.bpush 5#6) ∧
    decode 0b00110011000000000000000000100000#32 = .ok (.bpop 32#6) ∧
    decode 0b00110100000000000000000000000000#32 = .ok .sclr ∧
    decode 0b00110101000000000000000000000000#32 = .ok .schk ∧
    decode 0b00110110000000000000000000000000#32 = .ok .sxor := by decide

/-- Format X: OPC, 12 zero bits, LB = 7, LA = 8. -/
theorem test_decode_xor_cipher :
    decode 0b01000000000000000000000111001000#32 = .ok (.xor 8#6 7#6) ∧
    decode 0b01000001000000000000000001101001#32 = .ok (.crypt 0x69#8) := by decide

/-- Vectors C-12, C-16, C-24, G-5, G-18, N-2, N-4, X-8, X-9, P-6: illegal words, each with its reason. -/
theorem test_decode_illegal :
    decode 0x20000148#32 = .error (.reservedBit .s2b) ∧ decode 0x21000040#32 = .error (.reservedBit .b2s) ∧
    decode 0x22000021#32 = .error (.countAbove32 .i2b) ∧ decode 0x12000021#32 = .error (.countAbove32 .gen) ∧
    decode 0x10100805#32 = .error (.reservedBit .load) ∧ decode 0x00000001#32 = .error (.reservedBit .nop) ∧
    decode 0x03000000#32 = .error (.noRow 3#8) ∧ decode 0x40000861#32 = .error (.countAbove32 .xor) ∧
    decode 0x40001208#32 = .error (.reservedBit .xor) ∧ decode 0x11000001#32 = .error (.reservedBit .step) := by decide

/-- The host's entry reads the same words and refuses what is no command word. -/
theorem test_decodeTableWord :
    decodeTableWord 32 0x10000805 = some (.load 5#10 2#10) ∧ decodeTableWord 32 0x03000000 = none ∧
    decodeTableWord 40 (2 ^ 32) = none := by decide

/-! ## One step of each command, from the vectors -/

/-- N-1: NOP only sets BUSY. -/
theorem test_nop : look (hostWrite 2#10 0x00000000#32 k52) id = some { k52 with busy := true } := by decide

/-- N-3: CLRERR clears the record and keeps the generator. -/
theorem test_clrerr : look (exec .clrerr locked) (fun t => (t.error, t.lfsr.seeded)) = some (⟨false, 0#4, 0#12, 0#32⟩, true) := by decide

/-- N-7: SOFTRESET under the lock. -/
theorem test_softreset :
    look (hostWrite 2#10 0x02000000#32 locked) (fun t => (t.seed.toNat, t.lfsr.seeded, t.error.err, t.busy)) =
      some (0, false, false, true) := by decide

/-- N-6: a word that is not SOFTRESET is ignored under the lock. -/
theorem test_softreset_reserved_bit : look (hostWrite 2#10 0x02000001#32 locked) id = some { locked with busy := true } := by decide

/-- K52 itself: LOAD 5, 2 of the seed 0x0D. -/
theorem test_load : look (exec (.load 5#10 2#10) { State.reset with seed := 0x0D#64 }) id = some k52 := by decide

/-- G-9, G-10: EmptySeed and SeedTooLong come before TapOutOfRange. -/
theorem test_load_checks :
    look (exec (.load 0#10 3#10) k52) (fun t => (t.error.ecode, t.error.ecmd)) = some (6#4, 0x10000C00#32) ∧
    look (exec (.load 65#10 70#10) k52) (fun t => (t.error.ecode, t.error.ecmd)) = some (8#4, 0x10011841#32) := by decide

/-- L-1: the source's step. -/
theorem test_step :
    look (exec .step k52) (fun t => (t.dout, t.lfsr.st.toNat, t.lfsr.kscount)) = some (1#32, 0x16, 1#32) := by decide

/-- G-6: STEP from reset is NotSeeded. -/
theorem test_step_not_seeded :
    look (exec .step State.reset) (fun t => (t.error, t.dout)) = some (⟨true, 9#4, 8#12, 0x11000000#32⟩, 0#32) := by decide

/-- G-1. -/
theorem test_gen_12 :
    look (exec (.gen 12#6) k52) (fun t => (t.dout, t.lfsr.st.toNat, t.lfsr.kscount)) = some (0x9D3#32, 0x19, 12#32) := by decide

/-- G-3: the full width. -/
theorem test_gen_32 :
    look (exec (.gen 32#6) k52) (fun t => (t.dout, t.lfsr.st.toNat)) = some (0x9D3A74E9#32, 0x12) := by decide

/-- C-8, C-7: the last two ranges of the alphabet. -/
theorem test_s2b :
    look (exec (.s2b 0x2B#8) k52) (fun t => t.dout) = some 0x3E#32 ∧ look (exec (.s2b 0x39#8) k52) (fun t => t.dout) = some 0x3D#32 := by
  decide

/-- C-10. -/
theorem test_s2b_invalid : look (exec (.s2b 0x21#8) k52) (fun t => (t.error.ecode, t.dout)) = some (2#4, 0#32) := by decide

/-- C-15. -/
theorem test_b2s :
    look (exec (.b2s 26#6) k52) (fun t => t.dout) = some 0x61#32 ∧ look (exec (.b2s 63#6) k52) (fun t => t.dout) = some 0x2F#32 := by
  decide

/-- C-17, C-21. -/
theorem test_i2b :
    look (exec (.i2b 6#6) { k52 with din := 63#32 }) (fun t => t.dout) = some 63#32 ∧
    look (exec (.i2b 32#6) { k52 with din := 0xFFFFFFFF#32 }) (fun t => t.dout) = some 0xFFFFFFFF#32 := by decide

/-- C-18, C-20, C-23: Overflow, W = 0 among them. -/
theorem test_i2b_overflow :
    look (exec (.i2b 6#6) { k52 with din := 64#32 }) (fun t => t.error.ecode) = some 4#4 ∧
    look (exec (.i2b 0#6) { k52 with din := 1#32 }) (fun t => t.error.ecode) = some 4#4 ∧
    look (exec (.i2b 31#6) { k52 with din := 0x80000000#32 }) (fun t => t.error.ecode) = some 4#4 := by decide

/-- B-1. -/
theorem test_spush :
    look (exec (.spush 0x48#8) State.reset) (fun t => t.bs) = some [false, false, false, true, true, true] := by decide

/-- B-18, B-19 in the smallest instance: a full buffer, and InvalidSymbol before StreamFull. -/
theorem test_spush_full :
    look (exec (.spush 0x42#8) (holding 36)) (fun t => (t.error.ecode, t.bs.length)) = some (10#4, 36) ∧
    look (exec (.spush 0x21#8) (holding 36)) (fun t => t.error.ecode) = some 2#4 := by decide

/-- B-4. -/
theorem test_spop :
    look (exec .spop { k52 with bs := [false, false, false, true, true, true, true, false, false, false, true, false] })
      (fun t => (t.dout, t.bs)) = some (0x48#32, [true, false, false, false, true, false]) := by decide

/-- B-8: too few bits, and they stay. -/
theorem test_spop_short : look (exec .spop (holding 5)) (fun t => (t.error.ecode, t.bs.length)) = some (3#4, 5) := by decide

/-- B-7. -/
theorem test_bpush :
    look (exec (.bpush 5#6) { k52 with din := 0x16#32 }) (fun t => t.bs) = some [true, false, true, true, false] := by decide

/-- B-20, B-21 in the smallest instance: 6 bits free; Overflow before StreamFull. -/
theorem test_bpush_full :
    look (exec (.bpush 7#6) { holding 30 with din := 0x3F#32 }) (fun t => t.error.ecode) = some 10#4 ∧
    look (exec (.bpush 6#6) { holding 30 with din := 0x3F#32 }) (fun t => t.bs.length) = some 36 ∧
    look (exec (.bpush 7#6) { holding 30 with din := 0x80#32 }) (fun t => t.error.ecode) = some 4#4 := by decide

/-- B-15. -/
theorem test_bpop :
    look (exec (.bpop 6#6) { k52 with bs := [true, false, true, true, false, true, true] }) (fun t => (t.dout, t.bs)) =
      some (0x2D#32, [true]) := by decide

/-- B-13, B-16. -/
theorem test_bpop_edges :
    look (exec (.bpop 0#6) (holding 3)) (fun t => (t.dout, t.bs.length)) = some (0#32, 3) ∧
    look (exec (.bpop 6#6) (holding 1)) (fun t => (t.error.ecode, t.bs.length)) = some (3#4, 1) := by decide

/-- B-22. -/
theorem test_sclr : look (exec .sclr (holding 6)) (fun t => t.bs) = some [] := by decide

/-- B-3, B-9. -/
theorem test_schk :
    look (exec .schk (holding 12)) (fun t => (t.dout, t.bs.length)) = some (2#32, 12) ∧
    look (exec .schk (holding 5)) (fun t => t.error.ecode) = some 3#4 := by decide

/-- X-4, X-7. -/
theorem test_xor :
    look (exec (.xor 4#6 4#6) { k52 with din := 0xF0#32, dinb := 0x3C#32 }) (fun t => t.dout) = some 0x0C#32 ∧
    look (exec (.xor 31#6 31#6) { k52 with din := 0xFFFFFFFF#32, dinb := 0x12345678#32 }) (fun t => t.dout) = some 0x6DCBA987#32 := by
  decide

/-- X-5. -/
theorem test_xor_mismatch :
    look (exec (.xor 8#6 7#6) k52) (fun t => (t.error.ecode, t.error.ecmd)) = some (5#4, 0x400001C8#32) := by decide

/-- E-6. -/
theorem test_sxor :
    look (exec .sxor { k52 with bs := [false, false, false, true, true, true, true, false, false, false, true, false] })
      (fun t => (t.bs, t.lfsr.st.toNat, t.lfsr.kscount)) =
      some ([true, false, false, false, false, false, true, true, false, false, false, true], 0x19, 12#32) := by decide

/-- E-1. -/
theorem test_crypt :
    look (exec (.crypt 0x48#8) k52) (fun t => (t.dout, t.lfsr.st.toNat, t.lfsr.kscount)) = some (0x67#32, 0x1C, 6#32) := by decide

/-- E-3, E-4: NotSeeded before InvalidSymbol; no keystream bit is taken for an invalid symbol. -/
theorem test_crypt_errors :
    look (exec (.crypt 0x21#8) State.reset) (fun t => t.error.ecode) = some 9#4 ∧
    look (exec (.crypt 0x21#8) k52) (fun t => (t.error.ecode, t.lfsr.kscount)) = some (2#4, 0#32) := by decide

/-! ## Accesses, BUSY and reset -/

/-- A-1, A-2: reads from reset. -/
theorem test_reads_from_reset :
    (hostRead 0#10 State.reset).reads = [0x4C360100#32] ∧ (hostRead 1#10 State.reset).reads = [0x01800040#32] ∧
    (hostRead 0x3FF#10 State.reset).reads = [0#32] ∧ (hostRead 0x42#10 State.reset).reads = [0#32] ∧
    (hostRead 0x82#10 State.reset).reads = [0#32] := by decide

/-- A-9: reads after K52. -/
theorem test_reads_after_k52 :
    (hostRead 6#10 k52).reads = [0x00020005#32] ∧ (hostRead 3#10 k52).reads = [0x00000004#32] ∧
    (hostRead 0x80#10 k52).reads = [0x0000000D#32] ∧ (hostRead 7#10 k52).reads = [0#32] := by decide

/-- A-3, A-4: writes that change nothing. -/
theorem test_ignored_writes :
    look (hostWrite 0#10 0x12345678#32 State.reset) id = some State.reset ∧
    look (hostWrite 0x42#10 0xFFFFFFFF#32 State.reset) id = some State.reset := by decide

/-- A-6, second outcome: a write of DIN while BUSY = 1. -/
theorem test_write_while_busy :
    look (hostWrite 8#10 5#32 { State.reset with busy := true }) (fun t => (t.din, errcodeWord t.error, t.error.ecmd)) =
      some (0#32, 0x0020000B#32, 5#32) := by decide

/-- A-8: a rising edge with rst = 1. -/
theorem test_rst : resetEdge none runningLocked = State.reset := by decide

/-- G-12, G-13: STATUS and ACTIVE of a degenerate tap at both ends of N. -/
theorem test_degenerate_status :
    look (exec (.load 64#10 63#10) k52) (fun t => (statusWord t, activeWord t.lfsr)) = some (0x0000000C#32, 0x003F0040#32) ∧
    look (exec (.load 1#10 0#10) k52) (fun t => statusWord t) = some 0x0000000C#32 := by decide

/-- The largest CFG word R7 and R8 allow: NMAX = 512, BSMAX = 65532. -/
theorem test_cfg_of_the_largest_instance : cfgWord largeParams = 0xFFFC0200#32 := by decide

/-- The host's placement of a command runs it as the next step. -/
theorem test_withFetchWord : look (step (State.reset.withFetchWord 32 0x10000805)) (fun t => (t.lfsr.an, t.lfsr.ak, t.busy)) = some (5#10, 2#10, true) := by decide

/-- M-1: "Hi" encrypts to "gx" by CRYPT. -/
theorem test_message_hi :
    (execAll [.load 5#10 2#10, .crypt 0x48#8, .crypt 0x69#8] k52).1 = [0#32, 0x67#32, 0x78#32] := by decide

/-! ## Witnesses: for each obligation with hypotheses, states and operands that meet them, at the ends of their ranges -/

/-- A generator loaded with the seed 1, LOAD 1, 0, in the smallest instance: AN = 1. -/
def lfsr1 : Lfsr 32 := { st := 1#32, an := 1#10, ak := 0#10, seeded := true, kscount := 0#32 }

/-- LOAD 4, 0 of the seed x (G-17), and in the smallest instance LOAD 32, 0: AN = NMAX. -/
def lfsr4 (x : BitVec 32) : Lfsr 32 := { st := x, an := 4#10, ak := 0#10, seeded := true, kscount := 0#32 }
def lfsr32 (x : BitVec 32) : Lfsr 32 := { st := x, an := 32#10, ak := 0#10, seeded := true, kscount := 0#32 }

/-- A state in which the host's write of v to CMD is the next event. -/
def presented (s : State) (v : Word) : State := { s with pending := [.access (.write 2#10 v)] }

/-- An overrun record, the highest code. -/
def overrun : State := { k52 with error := { err := true, ecode := 11#4, eoff := 0x020#12, ecmd := 5#32 } }

/-- K52 in the smallest instance, with n bits in its buffer. -/
def keyed (n : Nat) : State :=
  { holding n with lfsr := { st := 0x0D#32, an := 5#10, ak := 2#10, seeded := true, kscount := 0#32 } }

theorem high_zero_of_lowBits {w : Nat} {x : BitVec w} {n : Nat} (h : x = lowBits n x) (i : Nat) (hi : n ≤ i) : x.getLsbD i = false := by
  rw [h, getLsbD_lowBits]
  simp
  omega

theorem k52_ready : k52.lfsr.Ready := ⟨rfl, by decide, by decide, by decide, high_zero_of_lowBits (x := 0x0D#64) (n := 5) (by decide)⟩
theorem k54_ready : k54.lfsr.Ready := ⟨rfl, by decide, by decide, by decide, high_zero_of_lowBits (x := 0x0D#64) (n := 5) (by decide)⟩
theorem lfsr1_ready : lfsr1.Ready := ⟨rfl, by decide, by decide, by decide, high_zero_of_lowBits (x := 1#32) (n := 1) (by decide)⟩
theorem lfsr4_ready (x : BitVec 32) (h : x = lowBits 4 x) : (lfsr4 x).Ready :=
  ⟨rfl, by simp [lfsr4], by simp [lfsr4], by simp [lfsr4], high_zero_of_lowBits h⟩
theorem lfsr32_ready (x : BitVec 32) : (lfsr32 x).Ready :=
  ⟨rfl, by simp [lfsr32], by simp [lfsr32], by simp [lfsr32], fun i hi => BitVec.getLsbD_of_ge _ _ hi⟩
theorem k52_inv : k52.Inv :=
  ⟨by decide, fun _ => by decide, nofun, k52_ready.high_zero, ⟨fun _ => by decide, nofun⟩⟩

theorem witness_WellFormedCommandDecodesFromItsWord :
    (Instr.xor 32#6 0#6).wellFormed = true ∧ (Instr.load 1023#10 1023#10).wellFormed = true := by decide

theorem witness_DecodedWordIsItsCommandsOnlyWord : decode 0x40000820#32 = .ok (.xor 32#6 32#6) ∧ decode 0#32 = .ok .nop := by decide

theorem witness_IllegalWordsAreThoseOfTheReservedSpace :
    decode 0x03000000#32 = .error (.noRow 3#8) ∧ decode 0x11800000#32 = .error (.reservedBit .step) ∧
    decode 0x33000021#32 = .error (.countAbove32 .bpop) ∧ (State.reset.busy = false ∧ State.reset.error.err = false) ∧
    (locked.busy = false ∧ locked.error.err = true) := by decide

theorem witness_EveryElementHasItsResetValue : k52.busy = false ∧ locked.busy = false := by decide

theorem witness_EveryStepKeepsInvariants : ∃ t, (presented k52 0x11000000#32).Inv ∧ step (presented k52 0x11000000#32) = .next t :=
  ⟨_, ⟨k52_inv.1, k52_inv.2, k52_inv.3, k52_inv.4, k52_inv.5⟩, rfl⟩

theorem witness_ReportedErrorCodesStayBelow12 : ∃ t, overrun.error.ecode.toNat ≤ 11 ∧ step overrun = .next t := ⟨_, by decide, rfl⟩

theorem witness_EveryRunEndsAfterItsEvents : State.reset.runEnded := ⟨rfl, rfl⟩

theorem witness_StepRunsTheDecodedCommand :
    ((presented k52 0x12000020#32).busy = false ∧
      (presented k52 0x12000020#32).pending = .access (.write 2#10 0x12000020#32) :: [] ∧ decode 0x12000020#32 = .ok (.gen 32#6)) ∧
    ((presented locked 0x01000000#32).error.err = true ∧ decode 0x01000000#32 = .ok .clrerr) ∧
    ((presented locked 0x12000021#32).busy = false ∧ decode 0x12000021#32 = .error (.countAbove32 .gen)) ∧
    ((Instr.gen 32#6).wellFormed = true ∧ k52.error.err = false) := by decide

theorem witness_ErrorLockHoldsUntilCleared :
    (locked.busy = false ∧ locked.error.err = true ∧ decode 0x01000001#32 ≠ .ok .clrerr ∧ decode 0x01000001#32 ≠ .ok .softreset ∧
      decode 0x11000000#32 ≠ .ok .clrerr ∧ decode 0x11000000#32 ≠ .ok .softreset) ∧
    (0 < locked.params.nmax / 32 ∧ 1 < locked.params.nmax / 32) ∧
    (∃ t, step (presented locked 0x11000000#32) = .next t) := ⟨by decide, by decide, _, rfl⟩

/-- Offsets 0x008, 0x020, 0x024, the two words of SEEDW, and of the rest 0x000, 0x028, 0x0FC and 0x108. -/
theorem witness_HostWriteReachesOnlyItsRegister :
    (running.busy = true ∧ runningLocked.busy = true ∧ k52.busy = false) ∧
    (4 * (2#10).toNat = 0x008 ∧ 4 * (8#10).toNat = 0x020 ∧ 4 * (9#10).toNat = 0x024) ∧
    (0 < k52.params.nmax / 32 ∧ 4 * (64#10).toNat = 0x100 + 4 * 0 ∧ 1 < k52.params.nmax / 32 ∧ 4 * (65#10).toNat = 0x100 + 4 * 1) ∧
    (∀ a ∈ [0#10, 10#10, 63#10, 66#10], 4 * a.toNat ≠ 0x008 ∧ 4 * a.toNat ≠ 0x020 ∧ 4 * a.toNat ≠ 0x024 ∧
      ∀ j, j < k52.params.nmax / 32 → 4 * a.toNat ≠ 0x100 + 4 * j) := by decide

theorem witness_IdleReadsShowIdentificationAndStatus : k52.busy = false ∧ locked.busy = false := by decide

theorem witness_IdleReadsShowDataRegisters :
    ((holding 36).busy = false ∧ (holding 36).bs.length ≤ (holding 36).params.bsmax ∧ 0 < (holding 36).params.nmax / 32) ∧
    15 < largeParams.nmax / 32 := by decide

/-- The first and last offset of each reserved range and each read-only range, for NMAX = 64. -/
theorem witness_ReservedOffsetsReadZeroAndIgnoreWrites :
    k52.busy = false ∧
    (∀ a ∈ [12#10, 63#10, 66#10, 127#10, 130#10, 1023#10], ReservedOffset k52.params.nmax (4 * a.toNat)) ∧
    (∀ a ∈ [0#10, 1#10, 3#10, 7#10, 10#10, 11#10, 128#10, 129#10], ReadOnlyOffset k52.params.nmax (4 * a.toNat)) := by
  unfold ReservedOffset ReadOnlyOffset
  decide

theorem witness_ReadsWhileBusyReturnOpenValues :
    running.busy = true ∧ 4 * (0#10).toNat = 0x000 ∧ 4 * (1#10).toNat = 0x004 ∧ 4 * (2#10).toNat = 0x008 ∧ 4 * (3#10).toNat = 0x00C ∧
    ReservedOffset running.params.nmax (4 * (130#10).toNat) ∧
    (∀ a ∈ [4#10, 11#10, 64#10, 65#10, 128#10, 129#10], (0x010 ≤ 4 * a.toNat ∧ 4 * a.toNat < 0x030) ∨
      (0x100 ≤ 4 * a.toNat ∧ 4 * a.toNat < 0x100 + running.params.nmax / 8) ∨
      (0x200 ≤ 4 * a.toNat ∧ 4 * a.toNat < 0x200 + running.params.nmax / 8)) := by
  unfold ReservedOffset
  decide

theorem witness_CompletionStepClearsBusyOnly :
    (k52.busy = false ∧ ∃ t, hostWrite 2#10 0x11000000#32 k52 = .next t) ∧
    ({ running with pending := [.complete] } : State).pending = .complete :: [] ∧
    (running.busy = true ∧ ∃ t, runEvent (.access (.write 2#10 0#32)) running = .next t) ∧ running.pending = [] :=
  ⟨⟨rfl, _, rfl⟩, rfl, ⟨rfl, _, rfl⟩, rfl⟩

theorem witness_IssueSequenceRunsTheCommandOnce :
    (Instr.gen 32#6).wellFormed = true ∧ k52.busy = false ∧ k52.error.err = false ∧
    ({ k52 with pending := issueSeq 2 (.gen 32#6) } : State).pending = issueSeq 2 (.gen 32#6) ++ [] := by decide

theorem witness_ReadsHaveNoSideEffectsAndWritesRepeat :
    (∃ t, runEvent (.access (.read 3#10)) running = .next t) ∧
    (k52.busy = false ∧ 4 * (65#10).toNat ≠ 0x008 ∧ ∃ t, runEvent (.access (.write 65#10 7#32)) k52 = .next t) :=
  ⟨⟨_, rfl⟩, rfl, by decide, _, rfl⟩

/-! The clauses on illegal words of the command statements: a reserved bit set at each end of the reserved field, or a count of 33. -/

theorem witness_NopSetsBusyAndNothingElse_illegal :
    ((0x00000001#32).extractLsb' 24 8 = 0x00#8 ∧ (0x00000001#32).extractLsb' 0 24 ≠ 0#24) ∧
    ((0x00800000#32).extractLsb' 24 8 = 0x00#8 ∧ (0x00800000#32).extractLsb' 0 24 ≠ 0#24) := by decide

theorem witness_ClrerrClearsTheRecordOnly_illegal :
    ((0x01000001#32).extractLsb' 24 8 = 0x01#8 ∧ (0x01000001#32).extractLsb' 0 24 ≠ 0#24) ∧
    ((0x01800000#32).extractLsb' 24 8 = 0x01#8 ∧ (0x01800000#32).extractLsb' 0 24 ≠ 0#24) := by decide

theorem witness_SoftresetReturnsEveryElement_illegal :
    ((0x02000001#32).extractLsb' 24 8 = 0x02#8 ∧ (0x02000001#32).extractLsb' 0 24 ≠ 0#24) ∧
    ((0x02800000#32).extractLsb' 24 8 = 0x02#8 ∧ (0x02800000#32).extractLsb' 0 24 ≠ 0#24) := by decide

theorem witness_LoadCopiesTheSeed_illegal :
    ((0x10100000#32).extractLsb' 24 8 = 0x10#8 ∧ (0x10100000#32).extractLsb' 20 4 ≠ 0#4) ∧
    ((0x10800000#32).extractLsb' 24 8 = 0x10#8 ∧ (0x10800000#32).extractLsb' 20 4 ≠ 0#4) := by decide

theorem witness_StepGivesOneKeystreamBit_illegal :
    ((0x11000001#32).extractLsb' 24 8 = 0x11#8 ∧ (0x11000001#32).extractLsb' 0 24 ≠ 0#24) ∧
    ((0x11800000#32).extractLsb' 24 8 = 0x11#8 ∧ (0x11800000#32).extractLsb' 0 24 ≠ 0#24) := by decide

theorem witness_GenPacksKeystreamBits_illegal :
    ((0x12000040#32).extractLsb' 24 8 = 0x12#8 ∧ (0x12000040#32).extractLsb' 6 18 ≠ 0#18) ∧
    ((0x12800000#32).extractLsb' 24 8 = 0x12#8 ∧ (0x12800000#32).extractLsb' 6 18 ≠ 0#18) ∧
    ((0x12000021#32).extractLsb' 24 8 = 0x12#8 ∧ 33 ≤ ((0x12000021#32).extractLsb' 0 6).toNat) := by decide

theorem witness_S2bGivesTheSymbolsIndex_illegal :
    ((0x20000100#32).extractLsb' 24 8 = 0x20#8 ∧ (0x20000100#32).extractLsb' 8 16 ≠ 0#16) ∧
    ((0x20800000#32).extractLsb' 24 8 = 0x20#8 ∧ (0x20800000#32).extractLsb' 8 16 ≠ 0#16) := by decide

theorem witness_B2sGivesTheIndexsSymbol_illegal :
    ((0x21000040#32).extractLsb' 24 8 = 0x21#8 ∧ (0x21000040#32).extractLsb' 6 18 ≠ 0#18) ∧
    ((0x21800000#32).extractLsb' 24 8 = 0x21#8 ∧ (0x21800000#32).extractLsb' 6 18 ≠ 0#18) := by decide

theorem witness_I2bChecksTheWidth_illegal :
    ((0x22000040#32).extractLsb' 24 8 = 0x22#8 ∧ (0x22000040#32).extractLsb' 6 18 ≠ 0#18) ∧
    ((0x22800000#32).extractLsb' 24 8 = 0x22#8 ∧ (0x22800000#32).extractLsb' 6 18 ≠ 0#18) ∧
    ((0x22000021#32).extractLsb' 24 8 = 0x22#8 ∧ 33 ≤ ((0x22000021#32).extractLsb' 0 6).toNat) := by decide

theorem witness_SpushAppendsTheSymbolsGroup_illegal :
    ((0x30000100#32).extractLsb' 24 8 = 0x30#8 ∧ (0x30000100#32).extractLsb' 8 16 ≠ 0#16) ∧
    ((0x30800000#32).extractLsb' 24 8 = 0x30#8 ∧ (0x30800000#32).extractLsb' 8 16 ≠ 0#16) := by decide

theorem witness_SpopTakesTheFirstGroup_illegal :
    ((0x31000001#32).extractLsb' 24 8 = 0x31#8 ∧ (0x31000001#32).extractLsb' 0 24 ≠ 0#24) ∧
    ((0x31800000#32).extractLsb' 24 8 = 0x31#8 ∧ (0x31800000#32).extractLsb' 0 24 ≠ 0#24) := by decide

theorem witness_BpushAppendsTheIntegersBits_illegal :
    ((0x32000040#32).extractLsb' 24 8 = 0x32#8 ∧ (0x32000040#32).extractLsb' 6 18 ≠ 0#18) ∧
    ((0x32800000#32).extractLsb' 24 8 = 0x32#8 ∧ (0x32800000#32).extractLsb' 6 18 ≠ 0#18) ∧
    ((0x32000021#32).extractLsb' 24 8 = 0x32#8 ∧ 33 ≤ ((0x32000021#32).extractLsb' 0 6).toNat) := by decide

theorem witness_BpopTakesTheFirstBits_illegal :
    ((0x33000040#32).extractLsb' 24 8 = 0x33#8 ∧ (0x33000040#32).extractLsb' 6 18 ≠ 0#18) ∧
    ((0x33800000#32).extractLsb' 24 8 = 0x33#8 ∧ (0x33800000#32).extractLsb' 6 18 ≠ 0#18) ∧
    ((0x33000021#32).extractLsb' 24 8 = 0x33#8 ∧ 33 ≤ ((0x33000021#32).extractLsb' 0 6).toNat) := by decide

theorem witness_SclrEmptiesTheBuffer_illegal :
    ((0x34000001#32).extractLsb' 24 8 = 0x34#8 ∧ (0x34000001#32).extractLsb' 0 24 ≠ 0#24) ∧
    ((0x34800000#32).extractLsb' 24 8 = 0x34#8 ∧ (0x34800000#32).extractLsb' 0 24 ≠ 0#24) := by decide

theorem witness_SchkCountsWholeGroups_illegal :
    ((0x35000001#32).extractLsb' 24 8 = 0x35#8 ∧ (0x35000001#32).extractLsb' 0 24 ≠ 0#24) ∧
    ((0x35800000#32).extractLsb' 24 8 = 0x35#8 ∧ (0x35800000#32).extractLsb' 0 24 ≠ 0#24) := by decide

theorem witness_SxorCombinesTheBufferWithKeystream_illegal :
    ((0x36000001#32).extractLsb' 24 8 = 0x36#8 ∧ (0x36000001#32).extractLsb' 0 24 ≠ 0#24) ∧
    ((0x36800000#32).extractLsb' 24 8 = 0x36#8 ∧ (0x36800000#32).extractLsb' 0 24 ≠ 0#24) := by decide

theorem witness_XorCombinesEqualLengths_illegal :
    ((0x40001000#32).extractLsb' 24 8 = 0x40#8 ∧ (0x40001000#32).extractLsb' 12 12 ≠ 0#12) ∧
    ((0x40800000#32).extractLsb' 24 8 = 0x40#8 ∧ (0x40800000#32).extractLsb' 12 12 ≠ 0#12) ∧
    ((0x40000021#32).extractLsb' 24 8 = 0x40#8 ∧ 33 ≤ ((0x40000021#32).extractLsb' 0 6).toNat) ∧
    ((0x40000840#32).extractLsb' 24 8 = 0x40#8 ∧ 33 ≤ ((0x40000840#32).extractLsb' 6 6).toNat) := by decide

theorem witness_CryptCombinesOneSymbolWithKeystream_illegal :
    ((0x41000100#32).extractLsb' 24 8 = 0x41#8 ∧ (0x41000100#32).extractLsb' 8 16 ≠ 0#16) ∧
    ((0x41800000#32).extractLsb' 24 8 = 0x41#8 ∧ (0x41800000#32).extractLsb' 8 16 ≠ 0#16) := by decide

theorem witness_NopSetsBusyAndNothingElse : k52.busy = false := by decide

theorem witness_ClrerrClearsTheRecordOnly : locked.busy = false ∧ locked.error.err = true := by decide

theorem witness_SoftresetReturnsEveryElement :
    (locked.busy = false ∧ locked.error.err = true) ∧ (State.reset.error.err = false ∧ State.reset.lfsr.seeded = false) ∧
    (Instr.gen 32#6).row ≠ .load ∧ ∃ t, exec (.gen 32#6) State.reset = .next t := ⟨by decide, by decide, by decide, _, rfl⟩

theorem witness_KsbitShiftsInTheFeedback :
    k52.lfsr.Ready ∧ lfsr1.Ready ∧ (lfsr32 1#32).Ready ∧ 3 < k52.lfsr.an.toNat - 1 ∧ k52.lfsr.an.toNat ≤ 5 :=
  ⟨k52_ready, lfsr1_ready, lfsr32_ready _, by decide, by decide⟩

theorem witness_LoadCopiesTheSeed :
    k52.error.err = false ∧ (0#10).toNat = 0 ∧ k52.params.nmax < (65#10).toNat ∧
    (1 ≤ (64#10).toNat ∧ (64#10).toNat ≤ k52.params.nmax ∧ (64#10).toNat ≤ (64#10).toNat) ∧
    (1 ≤ (64#10).toNat ∧ (64#10).toNat ≤ k52.params.nmax ∧ (63#10).toNat < (64#10).toNat) ∧
    (1 ≤ (1#10).toNat ∧ (1#10).toNat ≤ k52.params.nmax ∧ (0#10).toNat < (1#10).toNat) := by decide

theorem witness_StepGivesOneKeystreamBit :
    (State.reset.error.err = false ∧ State.reset.lfsr.seeded = false) ∧ k52.lfsr.seeded = true ∧
    (k54.lfsr.seeded = true ∧ k54.lfsr.ak.toNat = k54.lfsr.an.toNat - 1) := by decide

theorem witness_GenPacksKeystreamBits :
    (State.reset.error.err = false ∧ State.reset.lfsr.seeded = false) ∧
    ((32#6).toNat ≤ 32 ∧ (0#6).toNat ≤ 32 ∧ k52.lfsr.seeded = true) := by decide

theorem witness_GenEqualsRepeatedSteps : (32#6).toNat ≤ 32 ∧ (0#6).toNat ≤ 32 ∧ k52.lfsr.seeded = true := by decide

theorem witness_AlphabetTablesAreInverse : s2i 0x41#8 = some 0#6 ∧ s2i 0x2F#8 = some 63#6 := by decide

theorem witness_S2bGivesTheSymbolsIndex :
    (k52.error.err = false ∧ s2i 0x40#8 = none ∧ s2i 0x80#8 = none) ∧ s2i 0x41#8 = some 0#6 ∧ s2i 0x7A#8 = some 51#6 ∧
    0x80 ≤ (0xFF#8).toNat := by decide

theorem witness_I2bChecksTheWidth :
    (k52.error.err = false ∧ (31#6).toNat < 32 ∧ 2 ^ (31#6).toNat ≤ (0x80000000#32).toNat) ∧
    ((0#6).toNat < 32 ∧ 2 ^ (0#6).toNat ≤ (1#32).toNat) ∧
    (32#6).toNat = 32 ∧ (0x7FFFFFFF#32).toNat < 2 ^ (31#6).toNat ∧ (0#32).toNat < 2 ^ (0#6).toNat := by decide

theorem witness_BitSequencesAreMostSignificantFirst : 0 < 1 ∧ 5 < 6 := by decide

theorem witness_SpushAppendsTheSymbolsGroup :
    (k52.error.err = false ∧ s2i 0x21#8 = none) ∧
    ((holding 31).error.err = false ∧ s2i 0x41#8 = some 0#6 ∧ (holding 31).params.bsmax < (holding 31).bs.length + 6) ∧
    (holding 30).bs.length + 6 ≤ (holding 30).params.bsmax := by decide

theorem witness_SpopTakesTheFirstGroup :
    ((holding 5).error.err = false ∧ (holding 5).bs.length < 6) ∧
    ((holding 6).bs = (63#6).getLsbD 5 :: (63#6).getLsbD 4 :: (63#6).getLsbD 3 :: (63#6).getLsbD 2 :: (63#6).getLsbD 1 ::
      (63#6).getLsbD 0 :: []) ∧ 6 ≤ (holding 6).bs.length := by decide

theorem witness_BpushAppendsTheIntegersBits :
    ((holding 0).error.err = false ∧ (31#6).toNat < 32 ∧ 2 ^ (31#6).toNat ≤ ({ holding 0 with din := 0x80000000#32 } : State).din.toNat) ∧
    ((32#6).toNat = 32 ∧ (holding 5).params.bsmax < (holding 5).bs.length + (32#6).toNat) ∧
    ((holding 4).bs.length + (32#6).toNat ≤ (holding 4).params.bsmax ∧ (holding 36).din.toNat < 2 ^ (0#6).toNat ∧
      (holding 36).bs.length + (0#6).toNat ≤ (holding 36).params.bsmax) ∧
    (({ holding 30 with din := 63#32 } : State).din = (63#6).setWidth 32 ∧ (holding 30).bs.length + 6 ≤ (holding 30).params.bsmax) := by
  decide

theorem witness_BpopTakesTheFirstBits :
    ((holding 31).error.err = false ∧ (holding 31).bs.length < (32#6).toNat) ∧
    ((32#6).toNat ≤ 32 ∧ (32#6).toNat ≤ (holding 32).bs.length) ∧ (0#6).toNat ≤ (holding 0).bs.length ∧
    6 ≤ (holding 6).bs.length := by decide

theorem witness_SchkCountsWholeGroups :
    ((holding 35).error.err = false ∧ (holding 35).bs.length % 6 ≠ 0) ∧
    ((holding 36).bs.length ≤ (holding 36).params.bsmax ∧ (holding 36).bs.length % 6 = 0) ∧ (holding 0).bs.length % 6 = 0 := by decide

theorem witness_XorCombinesEqualLengths : (k52.error.err = false ∧ 8#6 ≠ 7#6) ∧ (32#6).toNat ≤ 32 ∧ (0#6).toNat ≤ 32 := by decide

theorem witness_SxorCombinesTheBufferWithKeystream :
    (State.reset.error.err = false ∧ State.reset.lfsr.seeded = false) ∧ (keyed 36).lfsr.seeded = true ∧ (keyed 0).lfsr.seeded = true ∧
    35 < (keyed 36).bs.length := by decide

theorem witness_CryptCombinesOneSymbolWithKeystream :
    (State.reset.error.err = false ∧ State.reset.lfsr.seeded = false) ∧
    (k52.error.err = false ∧ k52.lfsr.seeded = true ∧ s2i 0x21#8 = none) ∧ s2i 0x2F#8 = some 63#6 := by decide

theorem witness_CryptIsItsOwnInverse : k52.lfsr.seeded = true ∧ s2i 0x48#8 = some 7#6 := by decide

theorem witness_SxorIsItsOwnInverse : (keyed 36).lfsr.seeded = true := by decide

theorem witness_KeystreamReuseShowsPlaintextXor : k52.lfsr.seeded = true ∧ s2i 0x41#8 = some 0#6 ∧ s2i 0x2F#8 = some 63#6 := by decide

theorem witness_SxorInChunksEqualsOneShot : k52.lfsr.seeded = true := by decide

theorem witness_ErrorsArePrecise : ∃ t, State.reset.busy = false ∧ State.reset.error.err = false ∧
    hostWrite 2#10 0x11000000#32 State.reset = .next t ∧ t.error.err = true := ⟨_, rfl, rfl, rfl, rfl⟩

theorem witness_FirstApplicableErrorIsReported :
    (running.busy = true ∧ running.error.err = false) ∧
    (locked.busy = false ∧ locked.error.err = true ∧ 0x02000001#32 ≠ 0x01000000#32 ∧ 0x02000001#32 ≠ 0x02000000#32) ∧
    (k52.busy = false ∧ k52.error.err = false ∧ decode 0x42000000#32 = .error (.noRow 0x42#8)) ∧
    (State.reset.busy = false ∧ State.reset.error.err = false ∧ State.reset.lfsr.seeded = false) ∧
    ((0#10).toNat = 0 ∧ k52.params.nmax < (65#10).toNat ∧ (64#10).toNat ≤ k52.params.nmax ∧ (64#10).toNat ≤ (64#10).toNat) ∧
    (s2i 0x5B#8 = none ∧ k52.lfsr.seeded = true ∧ (31#6).toNat < 32 ∧
      2 ^ (31#6).toNat ≤ ({ k52 with din := 0x80000000#32 } : State).din.toNat ∧ (32#6).toNat ≤ 32 ∧ 32#6 ≠ 31#6) ∧
    (s2i 0x41#8 = some 0#6 ∧ (holding 31).params.bsmax < (holding 31).bs.length + 6 ∧
      (holding 5).params.bsmax < (holding 5).bs.length + (32#6).toNat) ∧
    ((holding 5).bs.length < 6 ∧ (holding 31).bs.length < (32#6).toNat ∧ (holding 35).bs.length % 6 ≠ 0) := by decide

theorem witness_CommandsWriteOnlyTheirElements :
    (∃ t, exec (.xor 8#6 8#6) k52 = .next t) ∧ (Instr.xor 8#6 8#6).row ∉ [Row.softreset, .load, .step, .gen, .sxor, .crypt] :=
  ⟨⟨_, rfl⟩, by decide⟩

theorem witness_DegenerateTapGivesZeroKeystream :
    (1 ≤ (1#10).toNat ∧ (1#10).toNat ≤ k52.params.nmax ∧ (0#10).toNat + 1 = (1#10).toNat) ∧
    ((64#10).toNat ≤ k52.params.nmax ∧ (63#10).toNat + 1 = (64#10).toNat) ∧
    (k54.lfsr.Ready ∧ k54.lfsr.ak.toNat + 1 = k54.lfsr.an.toNat ∧ k54.lfsr.an.toNat ≤ 5) ∧ s2i 0x48#8 = some 7#6 :=
  ⟨by decide, by decide, ⟨k54_ready, by decide, by decide⟩, by decide⟩

theorem witness_KeystreamIsALinearRecurrence : k52.lfsr.Ready ∧ lfsr1.Ready ∧ k52.lfsr.an.toNat ≤ 5 ∧ 5 < k52.lfsr.an.toNat + 1 :=
  ⟨k52_ready, lfsr1_ready, by decide, by decide⟩

/-- Two instances of different NMAX with the same low 5 seed bits. -/
theorem witness_KeystreamDependsOnlyOnSeedLengthAndTap :
    let s' : State := { State.resetOf smallParams with seed := 0xFFFFFFED#32 }
    1 ≤ (5#10).toNat ∧ (5#10).toNat ≤ k52.params.nmax ∧ (5#10).toNat ≤ s'.params.nmax ∧ (2#10).toNat < (5#10).toNat ∧
    ∀ i, i < (5#10).toNat → k52.seed.getLsbD i = s'.seed.getLsbD i := by decide

theorem witness_AllZeroRegisterStaysZero :
    ((lfsr4 0#32).Ready ∧ ∀ i, i < (lfsr4 0#32).an.toNat → (lfsr4 0#32).st.getLsbD i = false) ∧
    (∀ i, i < (64#10).toNat → State.reset.seed.getLsbD i = false) ∧ 1 ≤ (64#10).toNat ∧
    (64#10).toNat ≤ State.reset.params.nmax ∧ (0#10).toNat < (64#10).toNat :=
  ⟨⟨lfsr4_ready _ (by decide), by decide⟩, by decide, by decide, by decide, by decide⟩

theorem witness_StepMapIsBijectiveForTapZero :
    (lfsr4 1#32).Ready ∧ (lfsr4 2#32).Ready ∧ (lfsr32 1#32).Ready ∧ (lfsr4 1#32).an = (lfsr4 2#32).an ∧ 2 ≤ (lfsr4 1#32).an.toNat ∧
    (lfsr4 1#32).ak.toNat = 0 ∧ (lfsr4 1#32).st ≠ (lfsr4 2#32).st ∧ (ksBit (lfsr4 1#32)).2.st = (ksBit (lfsr4 1#32)).2.st :=
  ⟨lfsr4_ready _ (by decide), lfsr4_ready _ (by decide), lfsr32_ready _, by decide, by decide, by decide, by decide, rfl⟩

/-- K52's register and the one with element 0 changed (G-22). -/
theorem witness_FirstElementNeverReachesKeystream :
    let l' : Lfsr 64 := { st := 0x0C#64, an := 5#10, ak := 2#10, seeded := true, kscount := 0#32 }
    k52.lfsr.Ready ∧ l'.Ready ∧ k52.lfsr.an = l'.an ∧ k52.lfsr.ak = l'.ak ∧ 1 ≤ k52.lfsr.ak.toNat ∧
    (∀ i, 1 ≤ i → k52.lfsr.st.getLsbD i = l'.st.getLsbD i) ∧ (lfsr1.Ready ∧ lfsr1.an.toNat = 1) := by
  refine ⟨k52_ready, ⟨rfl, by decide, by decide, by decide, high_zero_of_lowBits (x := 0x0C#64) (n := 5) (by decide)⟩, by decide,
    by decide, by decide, ?_, lfsr1_ready, by decide⟩
  intro i hi
  by_cases h : i < 64
  · exact (by decide : ∀ i, i < 64 → 1 ≤ i → (0x0D#64).getLsbD i = (0x0C#64).getLsbD i) i h hi
  · have h64 : 64 ≤ i := by omega
    exact (BitVec.getLsbD_of_ge (0x0D#64) i h64).trans (BitVec.getLsbD_of_ge (0x0C#64) i h64).symm

/-- A message that fills the smallest buffer, and the empty message. -/
theorem witness_PushedMessagePopsBack :
    (6 * (List.replicate 6 0x48#8).length ≤ smallParams.bsmax ∧ ∀ c ∈ List.replicate 6 0x48#8, s2i c ≠ none) ∧
    6 * ([] : List Sys2Proof.Symbol).length ≤ smallParams.bsmax := by decide

theorem witness_StreamPathEqualsSymbolPath :
    1 ≤ (64#10).toNat ∧ (64#10).toNat ≤ k52.params.nmax ∧ (63#10).toNat < (64#10).toNat ∧ 6 * 64 ≤ k52.params.bsmax ∧
    ∀ c ∈ [0x48#8, 0x69#8], s2i c ≠ none := by decide

theorem witness_DecryptionGivesTheMessageBack :
    1 ≤ (5#10).toNat ∧ (5#10).toNat ≤ k52.params.nmax ∧ (4#10).toNat < (5#10).toNat ∧ ∀ c ∈ [0x41#8, 0x2F#8], s2i c ≠ none := by decide

/-! ## The assembler, on lines of 95_test_vectors.md -/

theorem test_assembler_commands :
    assembleLine "ISSUE LOAD 5, 2 ; restart".toList = some (some (.issue (.load 5#10 2#10))) ∧
    assembleLine "SPUSH 'H'".toList = some (some (.command (.spush 0x48#8))) ∧
    assembleLine "B2S 0b000111".toList = some (some (.command (.b2s 7#6))) ∧
    assembleLine "GEN 33".toList = none := by decide

theorem test_assembler_host_statements :
    assembleLine "WR SEEDW[1], 0x00000081".toList = some (some (.wr 65#10 0x81#32)) ∧
    assembleLine "RD STATEW[0]".toList = some (some (.rd 128#10)) ∧
    assembleLine "SPUSHS \"Hi\"".toList = some (some (.spushs [0x48#8, 0x69#8])) ∧
    assembleLine "KEY [1, 0, 1, 1, 0], 2".toList = some (some (.key [true, false, true, true, false] 2#10)) := by decide

/-- Log 19: an empty seed list is read, a list that ends in a comma is not, and KEY takes at most 1023 elements. -/
theorem test_seed_lists :
    assembleLine "KEY [], 0".toList = some (some (.key [] 0#10)) ∧ assembleLine "SEEDSET []".toList = some (some (.seedset [])) ∧
    assembleLine "SEEDSET [1,]".toList = none := by decide

theorem test_key_of_1024_elements_is_refused : keyOf (List.replicate 1024 false) 0#10 = none :=
  if_neg (by rw [List.length_replicate]; exact Nat.lt_irrefl 1024)

/-- KEY writes every seed word and then issues LOAD 5, 2 = 0x10000805. -/
theorem test_key :
    keySeq Params.default 0 [true, false, true, true, false] 2#10 =
      [.access (.write 64#10 0x0000000D#32), .access (.write 65#10 0#32), .access (.write 2#10 0x10000805#32), .complete,
       .access (.read 3#10)] := by decide

end Sys2Proof.Tests.Slice0
end

section
/-! PROOFS. Values and bit sequences (R11, R44, R67). -/

namespace Sys2Proof.Machine

/-- The model's recursive `valMSB` is the sum by which R11 defines it. -/
theorem valMSB_eq_sum (s : BitSeq) :
    valMSB s = ((List.range s.length).map fun i => (s.getD i false).toNat * 2 ^ (s.length - 1 - i)).sum := by
  induction s with
  | nil => rfl
  | cons b s ih =>
    -- `Nat.sub_sub` identifies the weight of element i + 1 of `b :: s` with that of element i of `s`.
    simp [valMSB, ih, List.range_succ_eq_map, Function.comp_def, Nat.sub_sub, Nat.add_comm 1]

/-- Taking the value of a sequence and writing it out in as many bits gives the sequence back; `valMSB_seqMSB` is the converse. -/
theorem seqMSB_valMSB (s : BitSeq) : seqMSB (valMSB s) s.length = s := by
  refine List.ext_getElem (seqMSB_length _ _) fun i hi hs => Option.some.inj ?_
  have hback : s.length - 1 - (s.length - 1 - i) = i := by omega
  calc some (seqMSB (valMSB s) s.length)[i]
      = (seqMSB (valMSB s) s.length)[i]? := (List.getElem?_eq_getElem hi).symm
    _ = some ((valMSB s).testBit (s.length - 1 - i)) := getElem?_seqMSB _ _ _ hs
    _ = some (s.getD (s.length - 1 - (s.length - 1 - i)) false) := by rw [testBit_valMSB s _ (by omega)]
    _ = some s[i] := by rw [hback, List.getD_eq_getElem _ _ hs]

/-- Settles O35, one lemma per clause: R11's two definitions, the two round trips and the value of a joined sequence. -/
theorem bitSequencesAreMostSignificantFirst : Obligations.BitSequencesAreMostSignificantFirst :=
  ⟨getElem?_seqMSB, seqMSB_length, valMSB_eq_sum, seqMSB_valMSB, valMSB_seqMSB, valMSB_append⟩

end Sys2Proof.Machine
end

section
/-! PROOFS. The invariants (10_state.md R35): at reset (R36), and kept by every step. -/

namespace Sys2Proof.Machine

/-! ## The invariants, one predicate per part of the state -/

/-- (I2) to (I4), which speak of the keystream generator alone (R35). -/
structure Lfsr.Legal {w : Nat} (l : Lfsr w) : Prop where
  seeded_legal : l.seeded = true → 1 ≤ l.an.toNat ∧ l.an.toNat ≤ w ∧ l.ak.toNat < l.an.toNat
  unseeded_zero : l.seeded = false → l.an = 0#10 ∧ l.ak = 0#10 ∧ l.st = 0#w ∧ l.kscount = 0#32
  high_zero : ∀ i, l.an.toNat ≤ i → l.st.getLsbD i = false

/-- (I5), which speaks of the error record alone (R35). -/
structure ErrorRecord.Legal (e : ErrorRecord) : Prop where
  unset_zero : e.err = false → e.ecode = 0#4 ∧ e.eoff = 0#12 ∧ e.ecmd = 0#32
  set_code_ne : e.err = true → e.ecode ≠ 0#4

/-- The invariants as (I1), the generator's part and the error record's part. -/
theorem State.inv_iff (s : State) : s.Inv ↔ s.bs.length ≤ s.params.bsmax ∧ s.lfsr.Legal ∧ s.error.Legal where
  mp h := ⟨h.stream_fits, ⟨h.seeded_legal, h.unseeded_zero, h.high_zero⟩, ⟨h.error_record.1, h.error_record.2⟩⟩
  mpr := fun ⟨hbs, hl, he⟩ => ⟨hbs, hl.seeded_legal, hl.unseeded_zero, hl.high_zero, he.unset_zero, he.set_code_ne⟩

theorem Lfsr.zero_legal (w : Nat) : (Lfsr.zero w).Legal where
  seeded_legal := nofun
  unseeded_zero _ := ⟨rfl, rfl, rfl, rfl⟩
  high_zero _ _ := BitVec.getLsbD_zero

/-- A generator that KSBIT may be called on is seeded, so (I3) says nothing of it. -/
theorem Lfsr.Ready.legal {w : Nat} {l : Lfsr w} (h : l.Ready) : l.Legal where
  seeded_legal _ := ⟨h.length_pos, h.length_le, h.tap_lt⟩
  unseeded_zero h0 := nomatch h.seeded.symm.trans h0
  high_zero := h.high_zero

/-- What a LOAD that passes its checks makes of the seed is a generator KSBIT may be called on (R77). -/
theorem Lfsr.ready_of_load {w : Nat} (seed : BitVec w) (n k : LfsrIndex) (hpos : 1 ≤ n.toNat) (hmax : n.toNat ≤ w)
    (htap : k.toNat < n.toNat) :
    Lfsr.Ready { st := lowBits n.toNat seed, an := n, ak := k, seeded := true, kscount := 0#32 } where
  seeded := rfl
  length_pos := hpos
  length_le := hmax
  tap_lt := htap
  high_zero i hi := by
    have hge : ¬ i < n.toNat := Nat.not_lt.mpr hi
    simp [getLsbD_lowBits, hge]

theorem ErrorRecord.none_legal : ErrorRecord.none.Legal := ⟨fun _ => ⟨rfl, rfl, rfl⟩, nofun⟩

theorem ErrorKind.code_ne_zero (e : ErrorKind) : e.code ≠ 0#4 := by
  cases e <;> decide

/-! ## Each update of the state keeps the invariants -/

section
variable {s : State}

@[simp] theorem State.setBusy_inv (b : Bool) : (s.setBusy b).Inv ↔ s.Inv := by simp [State.inv_iff]

@[simp] theorem State.setDout_inv (v : Word) : (s.setDout v).Inv ↔ s.Inv := by simp [State.inv_iff]

theorem State.Inv.setLfsr {l : Lfsr s.params.nmax} (h : s.Inv) (hl : l.Legal) : (s.setLfsr l).Inv :=
  have ⟨hbs, _, he⟩ := s.inv_iff.mp h
  (State.inv_iff _).mpr ⟨hbs, hl, he⟩

theorem State.Inv.setBs {x : BitSeq} (h : s.Inv) (hx : x.length ≤ s.params.bsmax) : (s.setBs x).Inv :=
  have ⟨_, hl, he⟩ := s.inv_iff.mp h
  (State.inv_iff _).mpr ⟨hx, hl, he⟩

theorem State.Inv.withError {e : ErrorRecord} (h : s.Inv) (he : e.Legal) : ({ s with error := e } : State).Inv :=
  have ⟨hbs, hl, _⟩ := s.inv_iff.mp h
  (State.inv_iff _).mpr ⟨hbs, hl, he⟩

/-- Recording an error sets ERR with a code other than 0, which is what (I5) asks of a set record. -/
theorem State.Inv.failed {code : BitVec 4} (h : s.Inv) (hc : code ≠ 0#4) (v : Word) : (s.failed code v).Inv :=
  h.withError ⟨nofun, fun _ => hc⟩

theorem State.Inv.recordError (h : s.Inv) (e : ErrorKind) (off : ByteOffset) (v : Word) : (s.recordError e off v).Inv := by
  cases herr : s.error.err with
  | true => rwa [s.recordError_of_err e off v herr]
  | false =>
    rw [s.recordError_of_no_err e off v herr]
    exact h.withError ⟨nofun, fun _ => e.code_ne_zero⟩

theorem State.clear_inv (s : State) : s.clear.Inv :=
  s.clear.inv_iff.mpr ⟨Nat.zero_le _, Lfsr.zero_legal _, ErrorRecord.none_legal⟩

/-- Taking keystream bits from a seeded generator keeps the invariants. -/
theorem State.Inv.takeKsBits (h : s.Inv) (hs : s.lfsr.seeded = true) (n : Nat) : (s.setLfsr (ksBits n s.lfsr).2).Inv :=
  h.setLfsr (ksBits_ready n s.lfsr (h.ready hs)).legal

/-! ## Commands, writes, events and steps keep the invariants -/

theorem ExecEffect.keeps_inv {i : Instr} {t : State} (he : ExecEffect i s t) (h : s.Inv) : t.Inv := by
  cases he with
  | same => exact h
  | error e => exact h.recordError e _ _
  | clearError => exact h.withError ErrorRecord.none_legal
  | clear => exact s.clear_inv
  | load n k _ hpos hmax htap => exact h.setLfsr (Lfsr.ready_of_load s.seed n k hpos hmax htap).legal
  | keystream n v _ hs => exact (State.setDout_inv v).mpr (h.takeKsBits hs n)
  | result v => exact (State.setDout_inv v).mpr h
  | stream x _ hx => exact h.setBs (hx.elim id fun hle => hle.trans h.stream_fits)
  | pop n v =>
    have hdrop : (s.bs.drop n).length ≤ s.bs.length := by simp
    exact (State.setDout_inv v).mpr (h.setBs (hdrop.trans h.stream_fits))
  | cipher _ hs =>
    have hxor : (xorSeq s.bs (ksBits s.bs.length s.lfsr).1).length = s.bs.length := by simp
    exact (h.takeKsBits hs _).setBs (hxor.trans_le h.stream_fits)

theorem WriteEffect.keeps_inv {t : State} (he : WriteEffect s t) (h : s.Inv) : t.Inv := by
  have hbusy : (s.setBusy true).Inv := (State.setBusy_inv true).mpr h
  cases he with
  | ignored => exact h
  | locked => exact hbusy
  | illegal v => exact hbusy.failed (by decide) v
  | command i hi => exact hi.keeps_inv hbusy
  | din v => exact (State.inv_iff _).mpr (s.inv_iff.mp h)
  | dinb v => exact (State.inv_iff _).mpr (s.inv_iff.mp h)
  | seed j v => exact (State.inv_iff _).mpr (s.inv_iff.mp h)

theorem EventEffect.keeps_inv {t : State} (he : EventEffect s t) (h : s.Inv) : t.Inv := by
  cases he with
  | read x n => exact (State.inv_iff _).mpr (s.inv_iff.mp h)
  | dropped a v => exact h.recordError _ _ v
  | write _ hw => exact hw.keeps_inv h
  | complete => exact (State.setBusy_inv false).mpr h
  | rst x n => exact (State.inv_iff _).mpr (s.clear.inv_iff.mp s.clear_inv)

end

/-- Settles O9: a step is an event or the completion step, and each of their effects keeps the invariants. -/
theorem everyStepKeepsInvariants : Obligations.EveryStepKeepsInvariants := by
  intro s t h hstep
  obtain ⟨-, hdone⟩ | ⟨e, rest, -, hevent⟩ := step_cases s
  · cases hdone.symm.trans hstep
    exact (State.setBusy_inv false).mpr h
  · have hrest : ({ s with pending := rest } : State).Inv := (State.inv_iff _).mpr (s.inv_iff.mp h)
    exact (runEvent_effect (hevent.symm.trans hstep)).keeps_inv hrest

/-- Settles O8: at reset the buffer is empty, the generator is unseeded and no error is recorded. -/
theorem resetStateMeetsInvariants : Obligations.ResetStateMeetsInvariants := fun _ =>
  (State.inv_iff _).mpr ⟨Nat.zero_le _, Lfsr.zero_legal _, ErrorRecord.none_legal⟩

/-! ## Reset values (R36) -/

/-- `State.clear` leaves every state element at its reset value, whatever BUSY and the model's own fields are (R36). -/
theorem State.clear_atReset (s : State) (busy : Bool) (pending : List Event) (reads : List Word) (draws : Nat) :
    ({ s.clear with busy := busy, pending := pending, reads := reads, draws := draws } : State).AtReset := by
  constructor <;> rfl

/-- A clock edge with rst = 1 clears every state element and BUSY; an access presented with it reaches only the model's own record of
reads (R107). -/
theorem resetEdge_eq (presented : Option Access) (s : State) :
    ∃ x n, resetEdge presented s = { s.clear with busy := false, reads := x, draws := n } := by
  rcases presented with _ | (a | ⟨a, v⟩)
  · exact ⟨s.reads, s.draws, rfl⟩
  · exact ⟨_, _, rfl⟩
  · exact ⟨s.reads, s.draws, rfl⟩

/-- The issue of SOFTRESET's word while BUSY = 0, under the error lock or not (R96, R100). -/
theorem hostWrite_softreset (s : State) (hb : s.busy = false) :
    hostWrite 2#10 0x02000000#32 s = .next (s.setBusy true).clear := by
  have hdec : decode 0x02000000#32 = .ok .softreset := by decide
  rw [hostWrite_cmd _ _ hb, issue_of_ok s hdec]
  simp [runsUnderLock, exec, execSoftreset]

/-- Settles O6: reset, rst and SOFTRESET each leave a state that `State.clear` made, up to BUSY and the model's own fields. -/
theorem everyElementHasItsResetValue : Obligations.EveryElementHasItsResetValue := by
  refine ⟨fun p => ⟨(State.resetOf p).clear_atReset false [] [] 0, rfl⟩, fun s presented => ?_, fun s hb => ?_⟩
  · obtain ⟨x, n, hedge⟩ := resetEdge_eq presented s
    exact ⟨_, congrArg Host.Outcome.next hedge, rfl, s.clear_atReset false s.pending x n, rfl⟩
  · exact ⟨_, hostWrite_softreset s hb, rfl, s.clear_atReset true s.pending s.reads s.draws, rfl, rfl⟩

end Sys2Proof.Machine
end

section
/-! PROOFS. What host reads show (10_state.md R18 to R32) and which host writes do nothing (R19), while BUSY = 0. -/

namespace Sys2Proof.Machine

/-! ## Reads while BUSY = 0 -/

/-- A read while BUSY = 0 answers the register its offset names (R40). -/
theorem readsAs_of_regAt {s : State} (hb : s.busy = false) {off : Nat} {r : Reg}
    (hr : regAt s.params (BitVec.ofNat 10 (off / 4)) = r) : s.ReadsAs off (readReg s r) := by
  subst hr
  simp [State.ReadsAs, runEvent, hostRead, hb, State.logRead]

/-- A read of one of the twelve registers from 0x000 to 0x02C. -/
theorem readsAs_low {s : State} (hb : s.busy = false) {off : Nat} {r : Reg}
    (hr : lowRegs[(BitVec.ofNat 10 (off / 4)).toNat]? = some r) : s.ReadsAs off (readReg s r) :=
  readsAs_of_regAt hb (regAt_low _ _ r hr)

/-- The word offset of word j of a window that starts at a multiple of 4. -/
theorem toNat_windowOffset {base j : Nat} (h : base + j < 2 ^ 10) :
    (BitVec.ofNat 10 ((4 * base + 4 * j) / 4)).toNat = base + j := by
  rw [BitVec.toNat_ofNat]
  omega

/-- A read of SEEDW[j] (R31). -/
theorem readsAs_seedw {s : State} (hb : s.busy = false) {j : Nat} (hj : j < s.params.nmax / 32) :
    s.ReadsAs (0x100 + 4 * j) (getWord s.seed j) := by
  have hn := nmax_cases s.params
  exact readsAs_of_regAt hb (regAt_seedw _ _ j hj (toNat_windowOffset (base := 64) (by omega)))

/-- A read of STATEW[j] (R32). -/
theorem readsAs_statew {s : State} (hb : s.busy = false) {j : Nat} (hj : j < s.params.nmax / 32) :
    s.ReadsAs (0x200 + 4 * j) (getWord s.lfsr.st j) := by
  have hn := nmax_cases s.params
  exact readsAs_of_regAt hb (regAt_statew _ _ j hj (toNat_windowOffset (base := 128) (by omega)))

/-! ## The fields of the register words -/

/-- A field of a word as a number; the statements below read it off the word's value. -/
theorem extractLsb'_eq_iff {w start len : Nat} (x : BitVec w) (y : BitVec len) :
    x.extractLsb' start len = y ↔ x.toNat / 2 ^ start % 2 ^ len = y.toNat := by
  rw [← BitVec.toNat_inj, BitVec.extractLsb'_toNat, Nat.shiftRight_eq_div_pow]

/-- CFG (R21). -/
theorem cfgWord_fields (p : Params) :
    ((cfgWord p).extractLsb' 0 16).toNat = p.nmax ∧ ((cfgWord p).extractLsb' 16 16).toNat = p.bsmax := by
  have hn := nmax_cases p
  have hb := bsmax_le p
  simp only [BitVec.extractLsb'_toNat, Nat.shiftRight_eq_div_pow, toNat_cfgWord]
  omega

/-- STATUS (R23). -/
theorem statusWord_fields (s : State) :
    (statusWord s).getLsbD 0 = s.busy ∧ (statusWord s).getLsbD 1 = s.error.err ∧
    (statusWord s).getLsbD 2 = s.lfsr.seeded ∧ (statusWord s).getLsbD 3 = degen s.lfsr ∧
    (statusWord s).extractLsb' 4 28 = 0#28 := by
  unfold statusWord
  generalize degen s.lfsr = d, s.lfsr.seeded = e, s.error.err = f, s.busy = b
  revert d e f b
  decide

/-- ERRCODE (R24). -/
theorem errcodeWord_fields (e : ErrorRecord) :
    (errcodeWord e).extractLsb' 0 4 = e.ecode ∧ (errcodeWord e).extractLsb' 4 12 = 0#12 ∧
    (errcodeWord e).extractLsb' 16 12 = e.eoff ∧ (errcodeWord e).extractLsb' 28 4 = 0#4 := by
  have hcode := e.ecode.isLt
  have hoff := e.eoff.isLt
  simp only [extractLsb'_eq_iff, toNat_errcodeWord, BitVec.toNat_ofNat]
  omega

/-- ACTIVE (R26). -/
theorem activeWord_fields {w : Nat} (l : Lfsr w) :
    (activeWord l).extractLsb' 0 10 = l.an ∧ (activeWord l).extractLsb' 10 6 = 0#6 ∧
    (activeWord l).extractLsb' 16 10 = l.ak ∧ (activeWord l).extractLsb' 26 6 = 0#6 := by
  have han := l.an.isLt
  have hak := l.ak.isLt
  simp only [extractLsb'_eq_iff, toNat_activeWord, BitVec.toNat_ofNat]
  omega

/-- BSCOUNT, for a buffer that its field can count (R30). -/
theorem bscountWord_fields (bs : BitSeq) (h : bs.length < 2 ^ 16) :
    ((bscountWord bs).extractLsb' 0 16).toNat = bs.length ∧ (bscountWord bs).extractLsb' 16 16 = 0#16 := by
  rw [extractLsb'_eq_iff, BitVec.extractLsb'_toNat, Nat.shiftRight_eq_div_pow, toNat_bscountWord bs h, BitVec.toNat_ofNat]
  omega

/-- Word j of a register, bit by bit (R31, R32). -/
theorem getWord_bits {w : Nat} (r : BitVec w) (j : Nat) : ∀ b, b < 32 → (getWord r j).getLsbD b = r.getLsbD (32 * j + b) := by
  intro b hb
  rw [getLsbD_getWord, decide_eq_true hb, Bool.true_and]

/-- Settles O16: each offset names its register, and each register's word has its fields. -/
theorem idleReadsShowIdentificationAndStatus : Obligations.IdleReadsShowIdentificationAndStatus := by
  intro s hb
  obtain ⟨hbusy, herr, hseeded, hdegen, hreserved⟩ := statusWord_fields s
  exact ⟨readsAs_low (r := .id) hb rfl,
    ⟨_, readsAs_low (r := .cfg) hb rfl, cfgWord_fields s.params⟩,
    readsAs_low (r := .cmd) hb rfl,
    ⟨_, readsAs_low (r := .status) hb rfl, hbusy.trans hb, herr, hseeded, hdegen, hreserved⟩,
    ⟨_, readsAs_low (r := .errcode) hb rfl, errcodeWord_fields s.error⟩,
    readsAs_low (r := .errcmd) hb rfl,
    ⟨_, readsAs_low (r := .active) hb rfl, activeWord_fields s.lfsr⟩⟩

/-- Settles O17: (I1) bounds the buffer, so BSCOUNT's field holds its length; the windows are read bit by bit. -/
theorem idleReadsShowDataRegisters : Obligations.IdleReadsShowDataRegisters := by
  intro s hb hbs
  have hcount : s.bs.length < 2 ^ 16 := by
    have := bsmax_le s.params
    omega
  exact ⟨readsAs_low (r := .kscount) hb rfl, readsAs_low (r := .din) hb rfl, readsAs_low (r := .dinb) hb rfl,
    readsAs_low (r := .dout) hb rfl, ⟨_, readsAs_low (r := .bscount) hb rfl, bscountWord_fields s.bs hcount⟩,
    fun j hj => ⟨⟨_, readsAs_seedw hb hj, getWord_bits s.seed j⟩, ⟨_, readsAs_statew hb hj, getWord_bits s.lfsr.st j⟩⟩⟩

/-! ## Writes that change nothing (R19) -/

/-- A write of a register other than CMD, DIN, DINB and SEEDW is ignored (R41). -/
theorem writeReg_ignored (v : Word) (s : State) {r : Reg} (hcmd : r ≠ .cmd) (hdin : r ≠ .din) (hdinb : r ≠ .dinb)
    (hseedw : ∀ j, r ≠ .seedw j) : writeReg v s r = .next s := by
  cases r with
  | cmd => exact absurd rfl hcmd
  | din => exact absurd rfl hdin
  | dinb => exact absurd rfl hdinb
  | seedw j => exact absurd rfl (hseedw j)
  | _ => rfl

/-- While BUSY = 0, a write is ignored at every word offset but those of CMD, DIN, DINB and SEEDW (R41). -/
theorem hostWrite_ignored (a : WordOffset) (v : Word) (s : State) (hb : s.busy = false) (hcmd : a.toNat ≠ 2)
    (hdin : a.toNat ≠ 8) (hdinb : a.toNat ≠ 9) (hseedw : ∀ j, j < s.params.nmax / 32 → a.toNat ≠ 64 + j) :
    hostWrite a v s = .next s := by
  obtain ⟨hc, hd, hd', hs⟩ := regAt_writable_iff s.params a
  rw [hostWrite_idle a v s hb]
  exact writeReg_ignored v s (mt hc.mp hcmd) (mt hd.mp hdin) (mt hd'.mp hdinb)
    fun j h => have ⟨hj, ha⟩ := (hs j).mp h; hseedw j hj ha

/-- Settles O18: a reserved offset names no register, and no reserved or read-only offset is one that takes a write. -/
theorem reservedOffsetsReadZeroAndIgnoreWrites : Obligations.ReservedOffsetsReadZeroAndIgnoreWrites := by
  intro s a v hb
  have hn := nmax_cases s.params
  refine ⟨fun h => ?_, fun h => ?_⟩
  · have ha : BitVec.ofNat 10 (4 * a.toNat / 4) = a := by simp
    exact readsAs_of_regAt hb (r := .reserved) (ha.symm ▸ regAt_reserved _ a h)
  · simp only [ReservedOffset, ReadOnlyOffset] at h
    exact hostWrite_ignored a v s hb (by omega) (by omega) (by omega) fun j hj => by omega

end Sys2Proof.Machine
end

section
/-! PROOFS. Host writes and reads (20_memory.md R40 to R43), that every step answers (R37, R98), and what a command's rule leaves
unchanged (R27 to R33). -/

namespace Sys2Proof

/-! ## Encoded words decode to their commands (R53, R56) -/

theorem symField_sWord (opc : BitVec 8) (sym : Symbol) : symField (sWord opc sym) = sym := by
  have hsym := sym.isLt
  rw [← BitVec.toNat_inj, toNat_symField, toNat_sWord]
  omega

theorem grpField_gWord (opc : BitVec 8) (grp : Group) : grpField (gWord opc grp) = grp := by
  have hgrp := grp.isLt
  rw [← BitVec.toNat_inj, toNat_grpField, toNat_gWord]
  omega

theorem countField_wWord (opc : BitVec 8) (w : BitCount) : countField (wWord opc w) = w := grpField_gWord opc w

theorem nField_lWord (opc : BitVec 8) (n k : LfsrIndex) : nField (lWord opc n k) = n := by
  have hn := n.isLt
  rw [← BitVec.toNat_inj, toNat_nField, toNat_lWord]
  omega

theorem kField_lWord (opc : BitVec 8) (n k : LfsrIndex) : kField (lWord opc n k) = k := by
  have hn := n.isLt
  have hk := k.isLt
  rw [← BitVec.toNat_inj, toNat_kField, toNat_lWord]
  omega

theorem countField_xWord (opc : BitVec 8) (la lb : BitCount) : countField (xWord opc la lb) = la := by
  have hla := la.isLt
  rw [← BitVec.toNat_inj, toNat_countField, toNat_xWord]
  omega

theorem countBField_xWord (opc : BitVec 8) (la lb : BitCount) : countBField (xWord opc la lb) = lb := by
  have hla := la.isLt
  have hlb := lb.isLt
  rw [← BitVec.toNat_inj, toNat_countBField, toNat_xWord]
  omega

/-- The fields of a command's word, read by its row, are the command's operands (R53). -/
theorem build_encode (i : Instr) : i.row.build (encode i) = i := by
  cases i with
  | load n k => exact congrArg₂ Instr.load (nField_lWord _ n k) (kField_lWord _ n k)
  | gen w => exact congrArg Instr.gen (countField_wWord _ w)
  | s2b sym => exact congrArg Instr.s2b (symField_sWord _ sym)
  | b2s grp => exact congrArg Instr.b2s (grpField_gWord _ grp)
  | i2b w => exact congrArg Instr.i2b (countField_wWord _ w)
  | spush sym => exact congrArg Instr.spush (symField_sWord _ sym)
  | bpush w => exact congrArg Instr.bpush (countField_wWord _ w)
  | bpop w => exact congrArg Instr.bpop (countField_wWord _ w)
  | xor la lb => exact congrArg₂ Instr.xor (countField_xWord _ la lb) (countBField_xWord _ la lb)
  | crypt sym => exact congrArg Instr.crypt (symField_sWord _ sym)
  | _ => rfl

/-- The opcode and the reserved bits of a command's word (R52, R53), for every command. -/
theorem encode_wordFields (i : Instr) : Laws.WordFields.Statement i := by
  cases i with
  | load n k => exact Laws.WordFields.load n k
  | gen w => exact Laws.WordFields.gen w
  | s2b sym => exact Laws.WordFields.s2b sym
  | b2s grp => exact Laws.WordFields.b2s grp
  | i2b w => exact Laws.WordFields.i2b w
  | spush sym => exact Laws.WordFields.spush sym
  | bpush w => exact Laws.WordFields.bpush w
  | bpop w => exact Laws.WordFields.bpop w
  | xor la lb => exact Laws.WordFields.xor la lb
  | crypt sym => exact Laws.WordFields.crypt sym
  | _ => exact Laws.WordFields.z_fields _

/-- A well-formed command's word decodes to it (R53, R56). -/
theorem decode_encode {i : Instr} (hw : i.wellFormed = true) : decode (encode i) = .ok i :=
  have ⟨hopc, hres⟩ := encode_wordFields i
  (decode_eq_ok_iff _ i).mpr ⟨i.row, hopc, hres, (build_encode i).symm, hw⟩

/-- A 32-bit word given as an opcode-table number is that word. -/
theorem tableWord_toNat (v : Word) : tableWord 32 v.toNat = v := by
  rw [tableWord, Nat.mod_eq_of_lt v.isLt, BitVec.ofNat_toNat, BitVec.setWidth_eq]

end Sys2Proof

namespace Sys2Proof.Machine

/-! ## Every step answers -/

/-- Settles O11: a step is an event or the completion step, and both answer a next state. -/
theorem everyStepAnswersANextState : Obligations.EveryStepAnswersANextState := by
  intro s
  obtain ⟨-, hdone⟩ | ⟨e, rest, -, hevent⟩ := step_cases s
  · exact ⟨_, hdone⟩
  · obtain ⟨t, ht, -⟩ := runEvent_cases e { s with pending := rest }
    exact ⟨t, hevent.trans ht⟩

/-! ## The step that takes a write to CMD (R42) -/

/-- When the next event is a write of v to CMD and BUSY = 0, a step issues v. -/
theorem step_of_cmdWrite {s : State} {v : Word} {rest : List Event} (hb : s.busy = false)
    (hp : s.pending = .access (.write 2#10 v) :: rest) : step s = issue v { s with pending := rest } := by
  rw [step, nextEvent, hp]
  exact hostWrite_cmd v { s with pending := rest } hb

/-- The error lock stops a command exactly when ERR = 1 and the command is neither CLRERR nor SOFTRESET (R100). -/
theorem lockStops_iff (e : ErrorRecord) (i : Instr) :
    (e.err && !runsUnderLock i) = true ↔ e.err = true ∧ i ≠ .clrerr ∧ i ≠ .softreset := by
  rw [Bool.and_eq_true, Bool.not_eq_true', ← Bool.not_eq_true, runsUnderLock_iff, not_or]

/-- With no error recorded, an issued command runs its rule with BUSY set (R42). -/
theorem issue_of_ok_of_no_err {v : Word} {i : Instr} {s : State} (hdec : decode v = .ok i) (herr : s.error.err = false) :
    issue v s = exec i (s.setBusy true) := by
  simp [issue_of_ok s hdec, herr]

/-- Settles O13: the step is the issue of the word; what the issue does follows from what the word decodes to and from ERR. -/
theorem stepRunsTheDecodedCommand : Obligations.StepRunsTheDecodedCommand := by
  refine ⟨fun s v i rest hb hp hdec => ?_, fun s v e rest hb hp hdec => ?_, fun s i hw herr => ?_⟩
  · rw [step_of_cmdWrite hb hp, issue_of_ok _ hdec]
    exact if_congr (lockStops_iff s.error i) rfl rfl
  · rw [step_of_cmdWrite hb hp, issue_of_error _ hdec]
    rfl
  · have hp : (s.withFetchWord 32 (encode i).toNat).pending = .access (.write 2#10 (encode i)) :: s.pending := by
      simp [State.withFetchWord, presentCommand, tableWord_toNat, wordAt]
    rw [step_of_cmdWrite rfl hp]
    exact issue_of_ok_of_no_err (decode_encode hw) herr

/-! ## Host writes (R41, R43) -/

/-- While BUSY = 1 a write is dropped; it leaves a CmdOverrun with its own offset and word if no error is recorded (R41, R111). -/
theorem hostWrite_busy (a : WordOffset) (v : Word) (s : State) (hb : s.busy = true) :
    hostWrite a v s = .next (if s.error.err = true then s
      else { s with error := { err := true, ecode := 11#4, eoff := BitVec.ofNat 12 (4 * a.toNat), ecmd := v } }) := by
  rw [← byteOffset_eq]
  exact if_pos hb

/-- While BUSY = 0 a write of SEEDW[j] replaces word j of SEED (R31, R41). -/
theorem hostWrite_seedw (a : WordOffset) (v : Word) (s : State) (hb : s.busy = false) {j : Nat} (hj : j < s.params.nmax / 32)
    (ha : a.toNat = 64 + j) : hostWrite a v s = .next { s with seed := setWord s.seed j v } := by
  rw [hostWrite_idle a v s hb, regAt_seedw s.params a j hj ha]
  rfl

/-- Settles O15: one clause per register that takes a write, and the rest are ignored. -/
theorem hostWriteReachesOnlyItsRegister : Obligations.HostWriteReachesOnlyItsRegister := by
  intro s a v
  refine ⟨hostWrite_busy a v s, fun hb => ?_⟩
  obtain ⟨hcmd, hdin, hdinb, -⟩ := regAt_writable_iff s.params a
  have hidle := hostWrite_idle a v s hb
  refine ⟨fun ha => ?_, fun ha => ?_, fun ha => ?_, fun j hj ha => ?_, fun h2 h8 h9 hs => ?_⟩
  · exact hidle.trans (congrArg (writeReg v s) (hcmd.mpr (by omega)))
  · exact hidle.trans (congrArg (writeReg v s) (hdin.mpr (by omega)))
  · exact hidle.trans (congrArg (writeReg v s) (hdinb.mpr (by omega)))
  · exact ⟨_, hostWrite_seedw a v s hb hj (by omega), getLsbD_setWord s.seed j v⟩
  · exact hostWrite_ignored a v s hb (by omega) (by omega) (by omega) fun j hj ha => hs j hj (by omega)

/-- A write of a register other than CMD, made again on the state it left, leaves that state (R43); and it moves neither the register
map nor BUSY. -/
theorem writeReg_repeats (v : Word) (s : State) {r : Reg} (hr : r ≠ .cmd) :
    ∃ t, writeReg v s r = .next t ∧ t.params = s.params ∧ t.busy = s.busy ∧ writeReg v t r = .next t := by
  cases r with
  | cmd => exact absurd rfl hr
  | seedw j =>
    refine ⟨_, rfl, rfl, rfl, ?_⟩
    simp only [writeReg, setWord_setWord]
  | _ => exact ⟨_, rfl, rfl, rfl, rfl⟩

/-- A read changes only the model's own record of reads and count of draws (R40). -/
theorem hostRead_keeps (a : WordOffset) (s : State) : (hostRead a s).arch = s.arch ∧ (hostRead a s).pending = s.pending := by
  unfold hostRead
  split <;> exact ⟨rfl, rfl⟩

/-- Settles O22: reads by `hostRead_keeps`, writes by `writeReg_repeats` at the register the offset names. -/
theorem readsHaveNoSideEffectsAndWritesRepeat : Obligations.ReadsHaveNoSideEffectsAndWritesRepeat := by
  refine ⟨fun s t a h => ?_, fun s t a v hb ha h => ?_⟩
  · cases h
    exact hostRead_keeps a s
  · have hcmd : regAt s.params a ≠ .cmd := mt (regAt_writable_iff s.params a).1.mp (by omega)
    obtain ⟨t', hwrite, hparams, hbusy, hagain⟩ := writeReg_repeats v s hcmd
    cases ((hostWrite_idle a v s hb).trans hwrite).symm.trans h
    have hidle := hostWrite_idle a v t (hbusy.trans hb)
    rw [hparams] at hidle
    exact hidle.trans hagain

/-! ## What a command's rule leaves unchanged (R27 to R33) -/

/-- Recording an error writes the record and nothing else (R98). -/
theorem State.recordError_withError (s : State) (e : ErrorKind) (off : ByteOffset) (v : Word) :
    ∃ r, s.recordError e off v = { s with error := r } := by
  cases herr : s.error.err with
  | true => exact ⟨s.error, s.recordError_of_err e off v herr⟩
  | false => exact ⟨_, s.recordError_of_no_err e off v herr⟩

/-- The rule at hand writes an element (its row is one of `part`, among the element's `writers`), yet is assumed not to. -/
theorem absurd_of_row_mem {r : Row} {writers part : List Row} {p : Prop} (hrow : r ∉ writers) (hr : r ∈ part)
    (hsub : part ⊆ writers) : p :=
  absurd (hsub hr) hrow

namespace ExecEffect

variable {i : Instr} {s t : State}

/-- No rule changes the parameters, BUSY or the model's own fields (R42, log 7). -/
theorem own_fields (h : ExecEffect i s t) :
    t.params = s.params ∧ t.busy = s.busy ∧ t.pending = s.pending ∧ t.reads = s.reads ∧ t.draws = s.draws := by
  cases h with
  | error e => simp
  | _ => exact ⟨rfl, rfl, rfl, rfl, rfl⟩

/-- A rule but those of CLRERR and SOFTRESET keeps a recorded error, and records a new one for CMD and its own word (R98). -/
theorem error_record (h : ExecEffect i s t) (hclr : i ≠ .clrerr) (hsoft : i ≠ .softreset) :
    t.error = s.error ∨ (s.error.err = false ∧ t.error.err = true ∧ t.error.eoff = 8#12 ∧ t.error.ecmd = encode i) := by
  cases h with
  | error e =>
    cases herr : s.error.err with
    | true => exact .inl (congrArg State.error (s.recordError_of_err _ _ _ herr))
    | false =>
      rw [s.recordError_of_no_err _ _ _ herr]
      exact .inr ⟨rfl, rfl, rfl, rfl⟩
  | clearError hi => exact absurd hi hclr
  | clear hi => exact absurd hi hsoft
  | _ => exact .inl rfl

/-- No rule but SOFTRESET's writes DIN, DINB or SEED (R28, R31). -/
theorem operands (h : ExecEffect i s t) (hsoft : i ≠ .softreset) :
    t.din = s.din ∧ t.dinb = s.dinb ∧ ∀ b, t.seed.getLsbD b = s.seed.getLsbD b := by
  cases h with
  | error e =>
    obtain ⟨r, hr⟩ := s.recordError_withError e cmdByteOffset (encode i)
    rw [hr]
    exact ⟨rfl, rfl, fun _ => rfl⟩
  | clear hi => exact absurd hi hsoft
  | _ => exact ⟨rfl, rfl, fun _ => rfl⟩

/-- Only SOFTRESET, LOAD and the keystream commands write the generator (R27, R32). -/
theorem generator (h : ExecEffect i s t) (hrow : i.row ∉ [Row.softreset, .load, .step, .gen, .sxor, .crypt]) :
    (∀ b, t.lfsr.st.getLsbD b = s.lfsr.st.getLsbD b) ∧
    t.lfsr.an = s.lfsr.an ∧ t.lfsr.ak = s.lfsr.ak ∧ t.lfsr.seeded = s.lfsr.seeded ∧ t.lfsr.kscount = s.lfsr.kscount := by
  cases h with
  | error e =>
    obtain ⟨r, hr⟩ := s.recordError_withError e cmdByteOffset (encode i)
    rw [hr]
    exact ⟨fun _ => rfl, rfl, rfl, rfl, rfl⟩
  | clear hi => simp [hi, Instr.row] at hrow
  | load n k hi => simp [hi, Instr.row] at hrow
  | cipher hi => simp [hi, Instr.row] at hrow
  | keystream n v hi => exact absurd_of_row_mem hrow hi (by decide)
  | _ => exact ⟨fun _ => rfl, rfl, rfl, rfl, rfl⟩

/-- Only SOFTRESET and LOAD write AN, AK and SEEDED: taking keystream bits keeps them (R76). -/
theorem length_and_tap (h : ExecEffect i s t) (hrow : i.row ∉ [Row.softreset, .load]) :
    t.lfsr.an = s.lfsr.an ∧ t.lfsr.ak = s.lfsr.ak ∧ t.lfsr.seeded = s.lfsr.seeded := by
  cases h with
  | error e =>
    obtain ⟨r, hr⟩ := s.recordError_withError e cmdByteOffset (encode i)
    rw [hr]
    exact ⟨rfl, rfl, rfl⟩
  | clear hi => simp [hi, Instr.row] at hrow
  | load n k hi => simp [hi, Instr.row] at hrow
  | keystream n => exact ⟨ksBits_an n s.lfsr, ksBits_ak n s.lfsr, ksBits_seeded n s.lfsr⟩
  | cipher => exact ⟨ksBits_an _ s.lfsr, ksBits_ak _ s.lfsr, ksBits_seeded _ s.lfsr⟩
  | _ => exact ⟨rfl, rfl, rfl⟩

/-- Only SOFTRESET and the stream commands write BS (R33). -/
theorem buffer (h : ExecEffect i s t) (hrow : i.row ∉ [Row.softreset, .spush, .spop, .bpush, .bpop, .sclr, .sxor]) :
    t.bs = s.bs := by
  cases h with
  | error e => exact s.recordError_bs e _ _
  | clear hi => simp [hi, Instr.row] at hrow
  | cipher hi => simp [hi, Instr.row] at hrow
  | stream x hi => exact absurd_of_row_mem hrow hi (by decide)
  | pop n v hi => exact absurd_of_row_mem hrow hi (by decide)
  | _ => rfl

/-- Only SOFTRESET and the commands with a result write DOUT (R29). -/
theorem result_register (h : ExecEffect i s t)
    (hrow : i.row ∉ [Row.softreset, .step, .gen, .s2b, .b2s, .i2b, .spop, .bpop, .schk, .xor, .crypt]) : t.dout = s.dout := by
  cases h with
  | error e => exact s.recordError_dout e _ _
  | clear hi => simp [hi, Instr.row] at hrow
  | keystream n v hi => exact absurd_of_row_mem hrow hi (by decide)
  | result v hi => exact absurd_of_row_mem hrow hi (by decide)
  | pop n v hi => exact absurd_of_row_mem hrow hi (by decide)
  | _ => rfl

end ExecEffect

/-- Settles O51: each part of the state, by the effects a rule can have on it. -/
theorem commandsWriteOnlyTheirElements : Obligations.CommandsWriteOnlyTheirElements := by
  intro i s t h
  have he := exec_effect h
  obtain ⟨hparams, hbusy, hpending, hreads, hdraws⟩ := he.own_fields
  exact ⟨hparams, hbusy, hpending, hreads, hdraws, he.error_record, he.operands, he.generator, he.length_and_tap, he.buffer,
    he.result_register⟩

end Sys2Proof.Machine
end

section
/-! PROOFS. The encoding of commands: its two round trips (30_encoding.md R52, R53, R56), the opcode map by match and mask (R55), and the
illegal words (R57). -/

namespace Sys2Proof

/-- Settles O1: the command's word has its row's opcode, no reserved bit and its operands (`decode_encode`). -/
theorem wellFormedCommandDecodesFromItsWord : Obligations.WellFormedCommandDecodesFromItsWord := fun _ => decode_encode

/-! ## A word is put together again from its fields (R52, R53) -/

section
variable {v : Word} {opc : BitVec 8}

/-- A word splits into its opcode, its reserved bits and its operand bits; with no reserved bit set, two parts are left. -/
theorem toNat_eq_of_fields {f : Format} (hopc : opcField v = opc) (hres : reservedField f v = 0) :
    v.toNat = opc.toNat * 2 ^ 24 + v.toNat % 2 ^ f.operandBits := by
  rw [toNat_reservedField] at hres
  rw [← hopc, toNat_opcField]
  cases f <;> simp only [Format.operandBits] at hres ⊢ <;> omega

theorem zWord_of_fields (hopc : opcField v = opc) (hres : reservedField .z v = 0) : zWord opc = v := by
  rw [← BitVec.toNat_inj, toNat_zWord, toNat_eq_of_fields hopc hres, Format.operandBits]
  omega

theorem sWord_of_fields (hopc : opcField v = opc) (hres : reservedField .s v = 0) : sWord opc (symField v) = v := by
  rw [← BitVec.toNat_inj, toNat_sWord, toNat_symField]
  exact (toNat_eq_of_fields hopc hres).symm

theorem gWord_of_fields (hopc : opcField v = opc) (hres : reservedField .g v = 0) : gWord opc (grpField v) = v := by
  rw [← BitVec.toNat_inj, toNat_gWord, toNat_grpField]
  exact (toNat_eq_of_fields hopc hres).symm

theorem wWord_of_fields (hopc : opcField v = opc) (hres : reservedField .w v = 0) : wWord opc (countField v) = v :=
  gWord_of_fields hopc hres

theorem lWord_of_fields (hopc : opcField v = opc) (hres : reservedField .l v = 0) : lWord opc (nField v) (kField v) = v := by
  have hv := toNat_eq_of_fields hopc hres
  rw [← BitVec.toNat_inj, toNat_lWord, toNat_nField, toNat_kField]
  simp only [Format.operandBits] at hv
  omega

theorem xWord_of_fields (hopc : opcField v = opc) (hres : reservedField .x v = 0) :
    xWord opc (countField v) (countBField v) = v := by
  have hv := toNat_eq_of_fields hopc hres
  rw [← BitVec.toNat_inj, toNat_xWord, toNat_countField, toNat_countBField]
  simp only [Format.operandBits] at hv
  omega

end

/-- A word with a row's opcode and no reserved bit is the word of the command its fields build (R53). -/
theorem encode_build {r : Row} {v : Word} (hopc : opcField v = r.opc) (hres : reservedField r.format v = 0) :
    encode (r.build v) = v := by
  cases r with
  | load => exact lWord_of_fields hopc hres
  | gen | i2b | bpush | bpop => exact wWord_of_fields hopc hres
  | s2b | spush | crypt => exact sWord_of_fields hopc hres
  | b2s => exact gWord_of_fields hopc hres
  | xor => exact xWord_of_fields hopc hres
  | _ => exact zWord_of_fields hopc hres

/-- Settles O2: the decoder builds the command from a word with its row's opcode and no reserved bit, which `encode_build` gives back. -/
theorem decodedWordIsItsCommandsOnlyWord : Obligations.DecodedWordIsItsCommandsOnlyWord := by
  intro v i h
  obtain ⟨r, hopc, hres, rfl, hw⟩ := (decode_eq_ok_iff v i).mp h
  exact ⟨hw, encode_build hopc hres⟩

/-! ## Rows by match and mask (R55) -/

/-- A row's match is its opcode with zeros below; its mask has every bit but the operand bits of its format. -/
theorem Row.matchMask_eq (r : Row) : r.matchMask = (zWord r.opc, BitVec.allOnes 32 <<< r.format.operandBits) := by
  cases r <;> rfl

/-- A mask of all bits from bit k up clears the bits below it. -/
theorem and_allOnes_shiftLeft {w : Nat} (v : BitVec w) (k : Nat) : v &&& BitVec.allOnes w <<< k = v >>> k <<< k := by
  ext i hi
  by_cases h : i < k
  · simp [h]
  · have hk : k + (i - k) = i := by omega
    simp [h, hk, hi]

theorem toNat_and_allOnes_shiftLeft {w : Nat} (v : BitVec w) (k : Nat) :
    (v &&& BitVec.allOnes w <<< k).toNat = v.toNat / 2 ^ k * 2 ^ k := by
  have hlt := (Nat.div_mul_le_self v.toNat (2 ^ k)).trans_lt v.isLt
  rw [and_allOnes_shiftLeft, BitVec.toNat_shiftLeft, BitVec.toNat_ushiftRight, Nat.shiftLeft_eq, Nat.shiftRight_eq_div_pow,
    Nat.mod_eq_of_lt hlt]

/-- A word matches a row by match and mask exactly when it has the row's opcode and no reserved bit of its format is set. -/
theorem Row.matches_iff (r : Row) (v : Word) :
    v &&& r.matchMask.2 = r.matchMask.1 ↔ opcField v = r.opc ∧ reservedField r.format v = 0 := by
  have hv := v.isLt
  rw [Row.matchMask_eq, ← BitVec.toNat_inj, ← BitVec.toNat_inj, toNat_and_allOnes_shiftLeft, toNat_zWord, toNat_opcField,
    toNat_reservedField]
  cases r.format <;> simp only [Format.operandBits] <;> omega

/-- The column constraint, of a word's fields: the counts of format W and format X are at most 32. -/
def Row.CountsOk (r : Row) (v : Word) : Prop :=
  (r.format = .w → (v.extractLsb' 0 6).toNat ≤ 32) ∧
  (r.format = .x → (v.extractLsb' 0 6).toNat ≤ 32 ∧ (v.extractLsb' 6 6).toNat ≤ 32)

/-- The command a row builds from a word is well formed exactly when the word's counts are legal (R54). -/
theorem Row.wellFormed_build_iff (r : Row) (v : Word) : (r.build v).wellFormed = true ↔ r.CountsOk v := by
  cases r <;> simp [Row.build, Row.CountsOk, Instr.wellFormed, Row.format, countOk, countField, countBField]

/-- A word is legal exactly when it has a row's opcode, no reserved bit, and legal counts (R56). -/
theorem decode_ok_iff (v : Word) :
    (∃ i, decode v = .ok i) ↔ ∃ r : Row, opcField v = r.opc ∧ reservedField r.format v = 0 ∧ r.CountsOk v := by
  simp only [decode_eq_ok_iff, ← Row.wellFormed_build_iff]
  constructor
  · rintro ⟨_, r, hopc, hres, rfl, hw⟩
    exact ⟨r, hopc, hres, hw⟩
  · rintro ⟨r, hopc, hres, hw⟩
    exact ⟨_, r, hopc, hres, rfl, hw⟩

/-- Settles O3: `decode_ok_iff` by match and mask; no other row matches, since its opcode would be the same. -/
theorem wordIsLegalExactlyWhenOneRowMatches : Obligations.WordIsLegalExactlyWhenOneRowMatches := by
  intro v
  simp only [decode_ok_iff, Row.matches_iff]
  refine exists_congr fun r => ⟨fun ⟨hopc, hres, hw, hx⟩ => ?_, fun ⟨⟨hopc, hres⟩, hw, hx, _⟩ => ⟨hopc, hres, hw, hx⟩⟩
  exact ⟨⟨hopc, hres⟩, hw, hx, fun r' ⟨hopc', _⟩ => Row.opc_injective (hopc'.symm.trans hopc)⟩

/-! ## Illegal words (R57) -/

theorem Row.ofOpc_isSome_iff (opc : BitVec 8) : (Row.ofOpc opc).isSome = true ↔ ∃ r : Row, r.opc = opc := by
  rw [Option.isSome_iff_exists]
  exact exists_congr fun r => ⟨Row.opc_of_ofOpc, fun h => h ▸ Row.ofOpc_opc r⟩

/-- The opcode values with a row are the 18 values of the column OPC, in some order. -/
theorem opcodesWithRow_perm :
    ((List.range 256).filter fun n => (Row.ofOpc (BitVec.ofNat 8 n)).isSome).Perm (Row.all.map fun r => r.opc.toNat) := by
  have hall : ∀ r : Row, r ∈ Row.all := fun r => by cases r <;> decide
  refine (List.perm_ext_iff_of_nodup (List.nodup_range.filter _) (by decide)).mpr fun n => ?_
  simp only [List.mem_filter, List.mem_range, Row.ofOpc_isSome_iff, List.mem_map, hall, true_and]
  constructor
  · rintro ⟨hn, r, hr⟩
    exact ⟨r, by rw [hr, BitVec.toNat_ofNat, Nat.mod_eq_of_lt hn]⟩
  · rintro ⟨r, rfl⟩
    exact ⟨r.opc.isLt, r, by rw [BitVec.ofNat_toNat, BitVec.setWidth_eq]⟩

/-- 256 values less the 18 with a row. -/
theorem opcodesWithoutRow_length :
    ((List.range 256).filter fun n => (Row.ofOpc (BitVec.ofNat 8 n)).isNone).length = 238 := by
  have hsome := opcodesWithRow_perm.length_eq
  have hsum := List.length_eq_length_filter_add (l := List.range 256) fun n => (Row.ofOpc (BitVec.ofNat 8 n)).isSome
  simp only [Option.not_isSome, List.length_range, List.length_map] at hsome hsum
  have : Row.all.length = 18 := rfl
  omega

theorem decode_error_iff (v : Word) : (∃ e, decode v = .error e) ↔ ¬ ∃ i, decode v = .ok i := by
  cases decode v <;> simp

/-- At most one row has a word's opcode, so what some row with this opcode meets, the row found meets. -/
theorem exists_row_iff {v : Word} {r : Row} (hopc : opcField v = r.opc) (P : Row → Prop) :
    (∃ r' : Row, opcField v = r'.opc ∧ P r') ↔ P r := by
  constructor
  · rintro ⟨r', hopc', h⟩
    rwa [Row.opc_injective (hopc.symm.trans hopc')]
  · exact fun h => ⟨r, hopc, h⟩

/-- The reasons of R57: no row has the opcode, a reserved bit is set, or a count is from 33 to 63. -/
theorem decode_error_reasons (v : Word) : (∃ e, decode v = .error e) ↔
    (∀ r : Row, opcField v ≠ r.opc) ∨
    (∃ r : Row, opcField v = r.opc ∧ reservedField r.format v ≠ 0) ∨
    (∃ r : Row, opcField v = r.opc ∧ r.format = .w ∧ 33 ≤ (v.extractLsb' 0 6).toNat) ∨
    (∃ r : Row, opcField v = r.opc ∧ r.format = .x ∧
      (33 ≤ (v.extractLsb' 0 6).toNat ∨ 33 ≤ (v.extractLsb' 6 6).toNat)) := by
  rw [decode_error_iff, decode_ok_iff]
  by_cases h : ∃ r : Row, opcField v = r.opc
  · obtain ⟨r, hopc⟩ := h
    have hrow : ¬ ∀ r : Row, opcField v ≠ r.opc := fun hno => hno r hopc
    simp only [exists_row_iff hopc, hrow, false_or, Row.CountsOk]
    cases r.format <;> simp <;> omega
  · have hno : ∀ r : Row, opcField v ≠ r.opc := fun r hr => h ⟨r, hr⟩
    simp [hno]

end Sys2Proof

namespace Sys2Proof.Machine

/-- A write of an illegal word to CMD while BUSY = 0 raises IllegalCommand, or only sets BUSY under the error lock (R56, R100). -/
theorem hostWrite_illegal {v : Word} {e : IllegalWord} (s : State) (hdec : decode v = .error e) (hb : s.busy = false) :
    hostWrite 2#10 v s = .next (if s.error.err then s.setBusy true else (s.setBusy true).failed 1#4 v) := by
  rw [hostWrite_cmd v s hb, issue_of_error s hdec]

theorem raisesIllegalCommand_of_error {v : Word} {e : IllegalWord} (hdec : decode v = .error e) : RaisesIllegalCommand v := by
  intro s hb herr
  rw [hostWrite_illegal s hdec hb, herr]
  rfl

/-- Settles O4: the count, the reasons, and the issue of an illegal word without and with the error lock. -/
theorem illegalWordsAreThoseOfTheReservedSpace : Obligations.IllegalWordsAreThoseOfTheReservedSpace := by
  refine ⟨opcodesWithoutRow_length, decode_error_reasons, fun v e hdec => ⟨raisesIllegalCommand_of_error hdec, fun s hb herr => ?_⟩⟩
  rw [hostWrite_illegal s hdec hb, herr]
  rfl

end Sys2Proof.Machine

namespace Sys2Proof

/-- Settles O5: nine words, each decoded. -/
theorem specWordsDecodeToTheirCommands : Obligations.SpecWordsDecodeToTheirCommands := by
  unfold Obligations.SpecWordsDecodeToTheirCommands
  decide

end Sys2Proof
end

section
/-! PROOFS. ISSUE (30_encoding.md R59): the run of its sequence of events, for every number of polls (log 18). -/

namespace Sys2Proof.Machine

theorem run_of_step {s t : State} (h : step s = .next t) (n : Nat) :
    Host.Core.run core (n + 1) s = Host.Core.run core n t := by
  have hcore : core.step s = .next t := h
  simp only [Host.Core.run, hcore]

theorem step_of_event {s t : State} {e : Event} {rest : List Event} (hp : s.pending = e :: rest)
    (h : runEvent e { s with pending := rest } = .next t) : step s = .next t := by
  rw [step, nextEvent, hp]
  exact h

/-- While BUSY = 1, STATUS reads with bit 0 = 1, whatever the free bits are (R110). -/
theorem getLsbD_zero_busyRead_status (free : Word) (s : State) : (busyRead free s .status).getLsbD 0 = true := by
  rw [busyRead, BitVec.getLsbD_append]
  rfl

/-- A read of STATUS while BUSY = 1 is recorded with bit 0 = 1, and takes one free value (R110). -/
theorem step_statusRead_busy {s : State} {rest : List Event} (hb : s.busy = true) (hp : s.pending = rdAt 0x00C :: rest) :
    ∃ x : Word, x.getLsbD 0 = true ∧
      step s = .next { s with pending := rest, reads := s.reads ++ [x], draws := s.draws + 1 } := by
  refine ⟨_, getLsbD_zero_busyRead_status (Config.freeRead s.draws) s, step_of_event hp ?_⟩
  rw [rdAt, runEvent, hostRead, if_pos hb, regAt_low _ _ .status rfl]
  rfl

/-- A read of STATUS while BUSY = 0 is recorded with STATUS's value (R40). -/
theorem step_statusRead_idle {s : State} {rest : List Event} (hb : s.busy = false) (hp : s.pending = rdAt 0x00C :: rest) :
    step s = .next { s with pending := rest, reads := s.reads ++ [statusWord s] } :=
  step_of_event hp (readsAs_low (off := 0x00C) (s := { s with pending := rest }) hb rfl)

theorem step_complete {s : State} {rest : List Event} (hp : s.pending = .complete :: rest) :
    step s = .next { s with busy := false, pending := rest } :=
  step_of_event hp rfl

/-- WAIT while BUSY = 1: each poll reads bit 0 = 1, then the completion step clears BUSY, and the last read is STATUS (R59, R109). -/
theorem run_waitSeq {t : State} {polls : Nat} {rest : List Event} (hb : t.busy = true) (hp : t.pending = waitSeq polls ++ rest) :
    ∃ polled : List Word, polled.length = polls ∧ (∀ x ∈ polled, x.getLsbD 0 = true) ∧
      Host.Core.run core (polls + 2) t = .next { t with
        busy := false, pending := rest, reads := t.reads ++ polled ++ [statusWord { t with busy := false }],
        draws := t.draws + polls } := by
  induction polls generalizing t with
  | zero =>
    refine ⟨[], rfl, nofun, ?_⟩
    rw [run_of_step (step_complete hp), run_of_step (step_statusRead_idle rfl rfl), List.append_nil]
    rfl
  | succ polls ih =>
    obtain ⟨x, hx, hstep⟩ := step_statusRead_busy hb (rest := waitSeq polls ++ rest) hp
    obtain ⟨polled, hlen, hbits, hrun⟩ := ih (t := { t with
      pending := waitSeq polls ++ rest, reads := t.reads ++ [x], draws := t.draws + 1 }) hb rfl
    refine ⟨x :: polled, congrArg (· + 1) hlen, List.forall_mem_cons.mpr ⟨hx, hbits⟩, ?_⟩
    rw [run_of_step hstep, hrun, Nat.add_right_comm t.draws, List.append_cons t.reads x polled]
    rfl

/-- Settles O21: the write to CMD runs the rule with BUSY set, the rule keeps BUSY and the events to come, and WAIT does the rest. -/
theorem issueSequenceRunsTheCommandOnce : Obligations.IssueSequenceRunsTheCommandOnce := by
  intro s i polls rest hw hb herr hp
  obtain ⟨t, hexec, heffect⟩ := exec_cases i { s with busy := true, pending := waitSeq polls ++ rest }
  obtain ⟨-, hbusy, hpending, hreads, hdraws⟩ := heffect.own_fields
  obtain ⟨polled, hlen, hbits, hrun⟩ := run_waitSeq hbusy hpending
  have hstep : step s = .next t :=
    ((step_of_cmdWrite hb hp).trans (issue_of_ok_of_no_err (decode_encode hw) herr)).trans hexec
  refine ⟨t, polled, _, hexec, ?_, hlen, hbits, rfl, (statusWord_fields _).1⟩
  rw [run_of_step hstep, hrun, hreads, hdraws]

end Sys2Proof.Machine
end

section
/-! PROOFS. The codec commands: the alphabet tables (40_codec.md R60 to R63), and S2B, B2S, I2B (R64 to R66). -/

namespace Sys2Proof

/-- A word `opc * 2^24 + x` whose operand x stays below the opcode, as the sum of the opcode's word and x (R53). -/
theorem eq_zWord_add {v : Word} {opc : BitVec 8} {n : Nat} {x : BitVec n} (hn : n ≤ 24)
    (hv : v.toNat = opc.toNat * 2 ^ 24 + x.toNat) : v = zWord opc + x.setWidth 32 := by
  have hv32 := v.isLt
  have hx : x.toNat < 2 ^ 24 := x.isLt.trans_le (Nat.pow_le_pow_right (by decide) hn)
  rw [← BitVec.toNat_inj, BitVec.toNat_add, toNat_zWord, BitVec.toNat_setWidth]
  omega

end Sys2Proof

namespace Sys2Proof.Machine

/-! ## Illegal words of a row (R56, R57) -/

section
variable {v : Word} (r : Row) (hopc : opcField v = r.opc)
include hopc

theorem raisesIllegalCommand_of_reservedBit
    (hres : v.extractLsb' r.format.operandBits (24 - r.format.operandBits) ≠ 0#_) : RaisesIllegalCommand v :=
  have hfield : reservedField r.format v ≠ 0 := fun h => hres (BitVec.eq_of_toNat_eq h)
  have ⟨_, hdec⟩ := (decode_error_reasons v).mpr (.inr (.inl ⟨r, hopc, hfield⟩))
  raisesIllegalCommand_of_error hdec

theorem raisesIllegalCommand_of_countAbove32 (hformat : r.format = .w) (hcount : 33 ≤ (v.extractLsb' 0 6).toNat) :
    RaisesIllegalCommand v :=
  have ⟨_, hdec⟩ := (decode_error_reasons v).mpr (.inr (.inr (.inl ⟨r, hopc, hformat, hcount⟩)))
  raisesIllegalCommand_of_error hdec

end

/-! ## The alphabet tables (R60 to R63) -/

/-- Each of the 64 rows of the alphabet table has its index by R61's ranges. -/
theorem s2i_i2s : ∀ g : Group, s2i (i2s g) = some g := by decide

/-- Each of the 256 codes that R61's ranges give an index stands in that row of the alphabet table. -/
theorem all_i2s_of_s2i : ∀ c : Symbol, (s2i c).all fun g => i2s g = c := by decide

theorem i2s_of_s2i (c : Symbol) (g : Group) (h : s2i c = some g) : i2s g = c := by
  simpa [h] using all_i2s_of_s2i c

/-- The valid codes are those of the alphabet table's 64 rows, in some order. -/
theorem validCodes_perm :
    ((List.range 256).filter fun n => (s2i (BitVec.ofNat 8 n)).isSome).Perm (alphabet.map BitVec.toNat) := by
  decide

/-- Every range of R61 gives an index, so the codes without one are those outside the ranges. -/
theorem s2i_eq_none_iff (c : Symbol) : s2i c = none ↔
    ¬ (0x41 ≤ c.toNat ∧ c.toNat ≤ 0x5A) ∧ ¬ (0x61 ≤ c.toNat ∧ c.toNat ≤ 0x7A) ∧ ¬ (0x30 ≤ c.toNat ∧ c.toNat ≤ 0x39) ∧
    c.toNat ≠ 0x2B ∧ c.toNat ≠ 0x2F := by
  simp only [s2i, ite_eq_iff, reduceCtorEq, and_false, false_or, and_true, ne_eq]

/-- Settles O31: the two round trips, and the valid codes counted as the rows of the table. -/
theorem alphabetTablesAreInverse : Obligations.AlphabetTablesAreInverse :=
  ⟨s2i_i2s, i2s_of_s2i, validCodes_perm.length_eq⟩

/-! ## S2B (R64) -/

theorem exec_s2b_of_none {c : Symbol} (s : State) (h : s2i c = none) :
    exec (.s2b c) s = raise .invalidSymbol (encode (.s2b c)) s := by
  rw [exec, execS2b, h]

theorem exec_s2b_of_some {c : Symbol} {g : Group} (s : State) (h : s2i c = some g) :
    exec (.s2b c) s = .next (s.setDout (g.setWidth 32)) := by
  rw [exec, execS2b, h]

/-- Settles O32: the word, the illegal words, the two cases of the table look-up, and the codes next to R61's ranges. -/
theorem s2bGivesTheSymbolsIndex : Obligations.S2bGivesTheSymbolsIndex := by
  refine ⟨fun c => eq_zWord_add (by decide) (toNat_sWord Row.s2b.opc c), fun v => raisesIllegalCommand_of_reservedBit .s2b,
    fun c s herr hnone => ?_, fun c g s hsome => exec_s2b_of_some s hsome, fun c hc => (s2i_eq_none_iff c).mpr ?_⟩
  · exact (exec_s2b_of_none s hnone).trans (raise_of_no_err _ _ s herr)
  · bv_omega

/-! ## B2S (R65) -/

/-- Settles O33: the rule has one case, and by `s2i_i2s` its result is always a valid code. -/
theorem b2sGivesTheIndexsSymbol : Obligations.B2sGivesTheIndexsSymbol := by
  refine ⟨fun g => eq_zWord_add (by decide) (toNat_gWord Row.b2s.opc g), fun v => raisesIllegalCommand_of_reservedBit .b2s,
    fun g s => rfl, fun g hnone => ?_, rfl, rfl⟩
  cases (s2i_i2s g).symm.trans hnone

/-! ## I2B (R66) -/

theorem exec_i2b_of_overflow {w : BitCount} (s : State) (h : overflows w s.din = true) :
    exec (.i2b w) s = raise .overflow (encode (.i2b w)) s := if_pos h

theorem exec_i2b_of_fits {w : BitCount} (s : State) (h : ¬ overflows w s.din = true) :
    exec (.i2b w) s = .next (s.setDout s.din) := if_neg h

/-- Settles O34: the word, the illegal words, and the two outcomes of the Overflow check, which W = 32 always passes. -/
theorem i2bChecksTheWidth : Obligations.I2bChecksTheWidth := by
  refine ⟨fun w => eq_zWord_add (by decide) (toNat_wWord Row.i2b.opc w), fun v hopc hillegal => ?_,
    fun w s herr hw hdin => ?_, fun w s hfits => ?_⟩
  · obtain hres | hcount := hillegal
    · exact raisesIllegalCommand_of_reservedBit .i2b hopc hres
    · exact raisesIllegalCommand_of_countAbove32 .i2b hopc rfl hcount
  · exact (exec_i2b_of_overflow s ((overflows_iff w s.din).mpr ⟨hw, hdin⟩)).trans (raise_of_no_err _ _ s herr)
  · refine exec_i2b_of_fits s fun hover => ?_
    have ⟨hw, hdin⟩ := (overflows_iff w s.din).mp hover
    omega

end Sys2Proof.Machine
end

section
/-! PROOFS. The stream-buffer commands SPUSH, SPOP, BPUSH, BPOP, SCLR, SCHK (41_stream.md R68 to R73). -/

namespace Sys2Proof.Machine

/-! ## The buffer as values (R11, R67) -/

theorem seqMSB_eq_map_range (v w : Nat) : seqMSB v w = (List.range w).map fun i => v.testBit (w - 1 - i) :=
  List.ext_getElem (by simp) fun i hi _ => by
    rw [List.getElem_eq_iff, getElem?_seqMSB v w i (by simpa using hi)]
    simp

/-- Every six bits are the bits of an index, so a buffer of six or more bits starts with a group (R69). -/
theorem exists_group_of_six_le {bs : BitSeq} (h : 6 ≤ bs.length) :
    ∃ (g : Group) (rest : BitSeq), bs = seqMSB g.toNat 6 ++ rest := by
  have hlen : (bs.take 6).length = 6 := List.length_take_of_le h
  have hlt : valMSB (bs.take 6) < 2 ^ 6 := by simpa only [hlen] using valMSB_lt (bs.take 6)
  have htake : seqMSB (valMSB (bs.take 6)) 6 = bs.take 6 := by simpa only [hlen] using seqMSB_valMSB (bs.take 6)
  refine ⟨BitVec.ofNat 6 (valMSB (bs.take 6)), bs.drop 6, ?_⟩
  rw [BitVec.toNat_ofNat, Nat.mod_eq_of_lt hlt, htake, List.take_append_drop]

/-- The low w bits of the value of the first w bits, and 0 above them (R71). -/
theorem getLsbD_ofNat_valMSB_take {bs : BitSeq} {w : Nat} (hw : w ≤ 32) (h : w ≤ bs.length) (i : Nat) :
    (BitVec.ofNat 32 (valMSB (bs.take w))).getLsbD i = if i < w then bs.getD (w - 1 - i) false else false := by
  have hlen : (bs.take w).length = w := List.length_take_of_le h
  rw [BitVec.getLsbD_ofNat]
  split
  · rename_i hi
    have hi32 : i < 32 := by omega
    have hfirst : w - 1 - i < w := by omega
    rw [testBit_valMSB _ _ (by omega), hlen]
    simp [hi32, hfirst]
  · rename_i hi
    have hlt : valMSB (bs.take w) < 2 ^ i :=
      (valMSB_lt _).trans_le (Nat.pow_le_pow_right (by decide) (by omega))
    rw [Nat.testBit_lt_two_pow hlt, Bool.and_false]

/-! ## Illegal words of format W (R56, R57) -/

theorem raisesIllegalCommand_of_formatW {v : Word} (r : Row) (hformat : r.format = .w) (hopc : opcField v = r.opc)
    (h : v.extractLsb' 6 18 ≠ 0#18 ∨ 33 ≤ (v.extractLsb' 0 6).toNat) : RaisesIllegalCommand v := by
  obtain hres | hcount := h
  · exact raisesIllegalCommand_of_reservedBit r hopc (by rw [hformat]; exact hres)
  · exact raisesIllegalCommand_of_countAbove32 r hopc hformat hcount

/-! ## SPUSH (R68) -/

section
variable {c : Symbol} (s : State)

theorem exec_spush_of_none (h : s2i c = none) : exec (.spush c) s = raise .invalidSymbol (encode (.spush c)) s := by
  rw [exec, execSpush, h]

theorem exec_spush_of_full {g : Group} (h : s2i c = some g) (hfull : s.params.bsmax < s.bs.length + 6) :
    exec (.spush c) s = raise .streamFull (encode (.spush c)) s := by
  simp only [exec, execSpush, h, if_pos hfull]

theorem exec_spush_of_fits {g : Group} (h : s2i c = some g) (hfit : s.bs.length + 6 ≤ s.params.bsmax) :
    exec (.spush c) s = .next (s.setBs (s.bs ++ seqMSB g.toNat 6)) := by
  simp only [exec, execSpush, h, if_neg (Nat.not_lt.mpr hfit)]

end

/-- Settles O36: the word, the illegal words, and the three outcomes of the table look-up and the capacity check. -/
theorem spushAppendsTheSymbolsGroup : Obligations.SpushAppendsTheSymbolsGroup := by
  refine ⟨fun c => eq_zWord_add (by decide) (toNat_sWord Row.spush.opc c), fun v => raisesIllegalCommand_of_reservedBit .spush,
    fun c s herr hnone => ?_, fun c g s herr hsome hfull => ?_, fun c g s hsome hfit => exec_spush_of_fits s hsome hfit⟩
  · exact (exec_spush_of_none s hnone).trans (raise_of_no_err _ _ s herr)
  · exact (exec_spush_of_full s hsome hfull).trans (raise_of_no_err _ _ s herr)

/-! ## SPOP (R69) -/

theorem exec_spop_of_short (s : State) (h : s.bs.length < 6) :
    exec .spop s = raise .invalidBitGroupLength (encode .spop) s := if_pos h

theorem exec_spop_of_group {s : State} {g : Group} {rest : BitSeq} (h : s.bs = seqMSB g.toNat 6 ++ rest) :
    exec .spop s = .next ((s.setBs rest).setDout ((i2s g).setWidth 32)) := by
  have hlen : ¬ s.bs.length < 6 := by simp [h]
  have htake : s.bs.take 6 = seqMSB g.toNat 6 := by rw [h, List.take_left' (seqMSB_length _ _)]
  have hdrop : s.bs.drop 6 = rest := by rw [h, List.drop_left' (seqMSB_length _ _)]
  have hval : BitVec.ofNat 6 (valMSB (seqMSB g.toNat 6)) = g := by
    rw [valMSB_seqMSB, Nat.mod_eq_of_lt g.isLt, BitVec.ofNat_toNat, BitVec.setWidth_eq]
  rw [exec, execSpop, if_neg hlen, htake, hdrop, hval]

/-- Settles O37: the word, the illegal words, the two outcomes of the length check, and that content never matters. -/
theorem spopTakesTheFirstGroup : Obligations.SpopTakesTheFirstGroup :=
  ⟨rfl, fun _ => raisesIllegalCommand_of_reservedBit .spop,
    fun s herr hshort => (exec_spop_of_short s hshort).trans (raise_of_no_err _ _ s herr),
    fun _ _ _ hbs => exec_spop_of_group hbs, fun _ hlen => exists_group_of_six_le hlen⟩

/-! ## BPUSH (R70) -/

/-- W = 32 never overflows (R70), nor does a value below 2^W. -/
theorem not_overflows_of_fits {w : BitCount} {v : Word} (h : w.toNat = 32 ∨ v.toNat < 2 ^ w.toNat) : ¬ overflows w v = true := by
  rw [overflows_iff]
  omega

section
variable {w : BitCount} (s : State)

theorem exec_bpush_of_overflow (h : overflows w s.din = true) : exec (.bpush w) s = raise .overflow (encode (.bpush w)) s :=
  if_pos h

theorem exec_bpush_of_full (h : ¬ overflows w s.din = true) (hfull : s.params.bsmax < s.bs.length + w.toNat) :
    exec (.bpush w) s = raise .streamFull (encode (.bpush w)) s :=
  (if_neg h).trans (if_pos hfull)

theorem exec_bpush_of_fits (h : ¬ overflows w s.din = true) (hfit : s.bs.length + w.toNat ≤ s.params.bsmax) :
    exec (.bpush w) s = .next (s.setBs (s.bs ++ seqMSB s.din.toNat w.toNat)) :=
  (if_neg h).trans (if_neg (Nat.not_lt.mpr hfit))

end

/-- An index in DIN goes into the buffer as its symbol does (R70). -/
theorem exec_bpush_six_eq_spush {s : State} {g : Group} (hdin : s.din = g.setWidth 32) (hfit : s.bs.length + 6 ≤ s.params.bsmax) :
    exec (.bpush 6#6) s = exec (.spush (i2s g)) s := by
  have hval : s.din.toNat = g.toNat := by rw [hdin, BitVec.toNat_setWidth_of_le (by decide)]
  have hlt : s.din.toNat < 2 ^ (6#6).toNat := by rw [hval]; exact g.isLt
  rw [exec_bpush_of_fits s (not_overflows_of_fits (.inr hlt)) hfit, exec_spush_of_fits s (s2i_i2s g) hfit, hval]
  rfl

/-- Settles O38: the word, the illegal words, the three outcomes of the two checks, and W = 6 against SPUSH. -/
theorem bpushAppendsTheIntegersBits : Obligations.BpushAppendsTheIntegersBits := by
  refine ⟨fun w => eq_zWord_add (by decide) (toNat_wWord Row.bpush.opc w), fun v => raisesIllegalCommand_of_formatW .bpush rfl,
    fun w s herr hw hdin => ?_, fun w s herr hfits hfull => ?_, fun w s hfits hcap => ?_, fun g s => exec_bpush_six_eq_spush⟩
  · exact (exec_bpush_of_overflow s ((overflows_iff w s.din).mpr ⟨hw, hdin⟩)).trans (raise_of_no_err _ _ s herr)
  · exact (exec_bpush_of_full s (not_overflows_of_fits hfits) hfull).trans (raise_of_no_err _ _ s herr)
  · rw [exec_bpush_of_fits s (not_overflows_of_fits hfits) hcap, seqMSB_eq_map_range]
    rfl

/-! ## BPOP (R71) -/

section
variable {w : BitCount} (s : State)

theorem exec_bpop_of_short (h : s.bs.length < w.toNat) :
    exec (.bpop w) s = raise .invalidBitGroupLength (encode (.bpop w)) s := if_pos h

theorem exec_bpop_of_enough (h : w.toNat ≤ s.bs.length) : exec (.bpop w) s =
    .next ((s.setBs (s.bs.drop w.toNat)).setDout (BitVec.ofNat 32 (valMSB (s.bs.take w.toNat)))) :=
  if_neg (Nat.not_lt.mpr h)

end

/-- BPOP 6 gives the index of the group that SPOP gives the symbol of (R71). -/
theorem exec_bpop_six_of_group {s : State} {g : Group} {rest : BitSeq} (h : s.bs = seqMSB g.toNat 6 ++ rest) :
    exec (.bpop 6#6) s = .next ((s.setBs rest).setDout (g.setWidth 32)) := by
  have hlen : (6#6).toNat ≤ s.bs.length := by simp [h]
  have htake : s.bs.take (6#6).toNat = seqMSB g.toNat 6 := by rw [h]; exact List.take_left' (seqMSB_length _ _)
  have hdrop : s.bs.drop (6#6).toNat = rest := by rw [h]; exact List.drop_left' (seqMSB_length _ _)
  rw [exec_bpop_of_enough s hlen, htake, hdrop, valMSB_seqMSB, Nat.mod_eq_of_lt g.isLt, BitVec.ofNat_toNat]

/-- Settles O39: the word, the illegal words, the two outcomes of the length check, and W = 6 against SPOP. -/
theorem bpopTakesTheFirstBits : Obligations.BpopTakesTheFirstBits := by
  refine ⟨fun w => eq_zWord_add (by decide) (toNat_wWord Row.bpop.opc w), fun v => raisesIllegalCommand_of_formatW .bpop rfl,
    fun w s herr hshort => (exec_bpop_of_short s hshort).trans (raise_of_no_err _ _ s herr),
    fun w s hw hlen => ⟨_, exec_bpop_of_enough s hlen, getLsbD_ofNat_valMSB_take hw hlen⟩, fun s hlen => ?_⟩
  obtain ⟨g, rest, hbs⟩ := exists_group_of_six_le hlen
  exact ⟨g, rest, exec_bpop_six_of_group hbs, exec_spop_of_group hbs⟩

/-! ## SCLR (R72) and SCHK (R73) -/

/-- Settles O40: the word, the illegal words, and the one case of the rule. -/
theorem sclrEmptiesTheBuffer : Obligations.SclrEmptiesTheBuffer :=
  ⟨rfl, fun _ => raisesIllegalCommand_of_reservedBit .sclr, fun _ => rfl⟩

theorem exec_schk_of_partial (s : State) (h : s.bs.length % 6 ≠ 0) :
    exec .schk s = raise .invalidBitGroupLength (encode .schk) s := if_pos h

theorem exec_schk_of_whole (s : State) (h : s.bs.length % 6 = 0) :
    exec .schk s = .next (s.setDout (BitVec.ofNat 32 (s.bs.length / 6))) := if_neg (not_not_intro h)

/-- Settles O41: the word, the illegal words, and the two outcomes of the check; DOUT can hold the count of any buffer that fits. -/
theorem schkCountsWholeGroups : Obligations.SchkCountsWholeGroups := by
  refine ⟨rfl, fun _ => raisesIllegalCommand_of_reservedBit .schk,
    fun s herr hpartial => (exec_schk_of_partial s hpartial).trans (raise_of_no_err _ _ s herr),
    fun s hfits hwhole => ⟨_, exec_schk_of_whole s hwhole, ?_⟩⟩
  have hmax := bsmax_le s.params
  rw [BitVec.toNat_ofNat]
  omega

end Sys2Proof.Machine
end

section
/-! PROOFS. Messages through the stream buffer (41_stream.md R74, R75): lists of commands, and a message as its groups. -/

namespace Sys2Proof.Machine

/-! ## Lists of commands -/

theorem execAll_cons {i : Instr} {s t : State} (h : exec i s = .next t) (is : List Instr) :
    execAll (i :: is) s = (t.dout :: (execAll is t).1, (execAll is t).2) := by
  simp only [execAll, h]

/-- Every rule answers a next state, so a joined list runs on from where its first part ends. -/
theorem execAll_append (is js : List Instr) (s : State) :
    execAll (is ++ js) s = ((execAll is s).1 ++ (execAll js (execAll is s).2).1, (execAll js (execAll is s).2).2) := by
  induction is generalizing s with
  | nil => rfl
  | cons i is ih =>
    obtain ⟨t, ht, -⟩ := exec_cases i s
    rw [List.cons_append, execAll_cons ht, execAll_cons ht, ih, List.cons_append]

/-! ## A message and its groups -/

/-- The bits of a list of groups, the first group first (R68). -/
def groupBits (gs : List Group) : BitSeq := gs.flatMap fun g => seqMSB g.toNat 6

theorem groupBits_cons (g : Group) (gs : List Group) : groupBits (g :: gs) = seqMSB g.toNat 6 ++ groupBits gs := rfl

@[simp] theorem groupBits_length (gs : List Group) : (groupBits gs).length = 6 * gs.length := by
  induction gs with
  | nil => rfl
  | cons g gs ih =>
    rw [groupBits_cons, List.length_append, seqMSB_length, ih, List.length_cons]
    omega

/-- A message of valid symbols is the message of a list of groups (R63). -/
theorem exists_groups_of_valid {msg : List Symbol} (h : ∀ c ∈ msg, s2i c ≠ none) : ∃ gs : List Group, gs.map i2s = msg := by
  have hmem : msg ∈ Set.range (List.map i2s) := by
    rw [Set.range_list_map]
    intro c hc
    obtain ⟨g, hg⟩ := Option.ne_none_iff_exists'.mp (h c hc)
    exact ⟨g, i2s_of_s2i c g hg⟩
  exact hmem

@[simp] theorem State.setBs_setBs (s : State) (x y : BitSeq) : (s.setBs x).setBs y = s.setBs y := rfl

/-- Pushing a message that fits appends its groups' bits, and leaves DOUT. -/
theorem execAll_spush (gs : List Group) (s : State) (hfit : s.bs.length + 6 * gs.length ≤ s.params.bsmax) :
    execAll ((gs.map i2s).map .spush) s = (List.replicate gs.length s.dout, s.setBs (s.bs ++ groupBits gs)) := by
  induction gs generalizing s with
  | nil => rw [groupBits, List.flatMap_nil, List.append_nil]; rfl
  | cons g gs ih =>
    rw [List.length_cons] at hfit
    have hpush := exec_spush_of_fits s (s2i_i2s g) (by omega)
    have hfit' : (s.bs ++ seqMSB g.toNat 6).length + 6 * gs.length ≤ s.params.bsmax := by
      rw [List.length_append, seqMSB_length]
      omega
    rw [List.map_cons, List.map_cons, execAll_cons hpush, ih _ hfit', State.setBs_bs, List.append_assoc, ← groupBits_cons]
    rfl

/-- One SPOP for each of the buffer's first groups gives their symbols in order, and changes the buffer and DOUT only. -/
theorem execAll_spop (gs : List Group) (rest : BitSeq) (s : State) (hbs : s.bs = groupBits gs ++ rest) :
    ∃ d : Word, execAll (List.replicate gs.length .spop) s =
      ((gs.map i2s).map fun c => c.setWidth 32, { s with bs := rest, dout := d }) := by
  induction gs generalizing s with
  | nil => exact ⟨s.dout, by rw [← show s.bs = rest from hbs]; rfl⟩
  | cons g gs ih =>
    rw [groupBits_cons, List.append_assoc] at hbs
    have hpop := exec_spop_of_group hbs
    obtain ⟨d, hd⟩ := ih ((s.setBs (groupBits gs ++ rest)).setDout ((i2s g).setWidth 32)) rfl
    exact ⟨d, by rw [List.length_cons, List.replicate_succ, execAll_cons hpop, hd]; rfl⟩

/-- SCHK of a buffer that holds groups gives their number (R73, R74). -/
theorem exec_schk_of_groups {s : State} {gs : List Group} (hbs : s.bs = groupBits gs) :
    exec .schk s = .next (s.setDout (BitVec.ofNat 32 gs.length)) := by
  have hlen : s.bs.length = 6 * gs.length := by rw [hbs, groupBits_length]
  have hcount : s.bs.length / 6 = gs.length := by omega
  rw [exec_schk_of_whole s (by omega), hcount]

/-! ## A message through the buffer -/

/-- Settles O58: the buffer holds the message's groups after the pushes, so SCHK counts them and the SPOPs give them back. -/
theorem pushedMessagePopsBack : Obligations.PushedMessagePopsBack := by
  intro s msg hfit hvalid
  obtain ⟨gs, rfl⟩ := exists_groups_of_valid hvalid
  rw [List.length_map] at hfit ⊢
  have hclr : exec .sclr s = .next (s.setBs []) := rfl
  have hpush := execAll_spush gs (s.setBs []) (by simpa using hfit)
  rw [State.setBs_bs, List.nil_append, State.setBs_setBs] at hpush
  have hchk := exec_schk_of_groups (s := s.setBs (groupBits gs)) rfl
  obtain ⟨d, hpop⟩ := execAll_spop gs [] ((s.setBs (groupBits gs)).setDout (BitVec.ofNat 32 gs.length)) (by simp)
  rw [execAll_cons hclr, execAll_append, hpush, execAll_cons hchk, hpop]
  simp

end Sys2Proof.Machine
end

section
/-! PROOFS. The LFSR commands: one step (42_lfsr.md R76), LOAD (R77), STEP (R78) and GEN (R79). -/

namespace Sys2Proof.Machine

/-! ## One step (R76) -/

/-- A step counts its bit, modulo 2^32 (R27). -/
theorem toNat_ksBit_kscount {w : Nat} (l : Lfsr w) : (ksBit l).2.kscount.toNat = (l.kscount.toNat + 1) % 2 ^ 32 :=
  BitVec.toNat_add _ _

/-- Settles O26: the register's elements by `getLsbD_ksBit`, and 0 above them because a step keeps the generator ready. -/
theorem ksbitShiftsInTheFeedback : Obligations.KsbitShiftsInTheFeedback := by
  intro w l h
  refine ⟨rfl, fun i hi => ?_, ?_, (ksBit_ready l h).high_zero, toNat_ksBit_kscount l, rfl, rfl, rfl, rfl⟩
  · rw [getLsbD_ksBit l h, if_neg hi.ne]
  · rw [getLsbD_ksBit l h, if_pos rfl, ksBit_fst]

/-- With the degenerate tap the two inputs of the feedback are the same bit (R80). -/
theorem Lfsr.feedback_of_degenerate {w : Nat} {l : Lfsr w} (htap : l.ak.toNat = l.an.toNat - 1) : l.feedback = false := by
  rw [Lfsr.feedback, htap, Bool.xor_self]

/-! ## LOAD (R77) -/

/-- The generator that a LOAD makes of the seed (R77). -/
def Lfsr.loaded {w : Nat} (seed : BitVec w) (n k : LfsrIndex) : Lfsr w :=
  { st := lowBits n.toNat seed, an := n, ak := k, seeded := true, kscount := 0#32 }

theorem Lfsr.getLsbD_loaded {w : Nat} (seed : BitVec w) (n k : LfsrIndex) (i : Nat) :
    (Lfsr.loaded seed n k).st.getLsbD i = if i < n.toNat then seed.getLsbD i else false := by
  rw [Lfsr.loaded, getLsbD_lowBits]
  split <;> simp [*]

/-- DEGEN of a ready generator is its degenerate tap, with no difference of naturals (R23). -/
theorem Lfsr.Ready.degen_eq {w : Nat} {l : Lfsr w} (h : l.Ready) : degen l = decide (l.ak.toNat + 1 = l.an.toNat) := by
  have hpos := h.length_pos
  rw [degen, h.seeded, Bool.true_and]
  exact decide_eq_decide.mpr (by omega)

section
variable {n k : LfsrIndex} (s : State)

theorem exec_load_of_empty (hn : n.toNat = 0) : exec (.load n k) s = raise .emptySeed (encode (.load n k)) s := if_pos hn

theorem exec_load_of_long (hlong : s.params.nmax < n.toNat) :
    exec (.load n k) s = raise .seedTooLong (encode (.load n k)) s :=
  (if_neg (Nat.ne_zero_of_lt hlong)).trans (if_pos hlong)

theorem exec_load_of_tap (hpos : 1 ≤ n.toNat) (hmax : n.toNat ≤ s.params.nmax) (htap : n.toNat ≤ k.toNat) :
    exec (.load n k) s = raise .tapOutOfRange (encode (.load n k)) s :=
  (if_neg (Nat.ne_zero_of_lt hpos)).trans ((if_neg (Nat.not_lt.mpr hmax)).trans (if_pos htap))

theorem exec_load_of_legal (hpos : 1 ≤ n.toNat) (hmax : n.toNat ≤ s.params.nmax) (htap : k.toNat < n.toNat) :
    exec (.load n k) s = .next (s.setLfsr (Lfsr.loaded s.seed n k)) :=
  (if_neg (Nat.ne_zero_of_lt hpos)).trans ((if_neg (Nat.not_lt.mpr hmax)).trans (if_neg (Nat.not_le.mpr htap)))

end

/-- A word of format L as the sum of its opcode's word and its two operands (R53). -/
theorem lWord_eq_add (opc : BitVec 8) (n k : LfsrIndex) :
    lWord opc n k = zWord opc + k.setWidth 32 * 0x400#32 + n.setWidth 32 := by
  have hopc := opc.isLt
  have hn := n.isLt
  have hk := k.isLt
  rw [← BitVec.toNat_inj, toNat_lWord, BitVec.toNat_add, BitVec.toNat_add, BitVec.toNat_mul, toNat_zWord,
    BitVec.toNat_setWidth, BitVec.toNat_setWidth, BitVec.toNat_ofNat]
  omega

/-- Settles O27: the word, the illegal words, the three checks in their order, and the generator LOAD makes. -/
theorem loadCopiesTheSeed : Obligations.LoadCopiesTheSeed := by
  refine ⟨lWord_eq_add Row.load.opc, fun v => raisesIllegalCommand_of_reservedBit .load, fun n k s herr hn => ?_,
    fun n k s herr hlong => ?_, fun n k s herr hpos hmax htap => ?_, fun n k s hpos hmax htap => ?_⟩
  · exact (exec_load_of_empty s hn).trans (raise_of_no_err _ _ s herr)
  · exact (exec_load_of_long s hlong).trans (raise_of_no_err _ _ s herr)
  · exact (exec_load_of_tap s hpos hmax htap).trans (raise_of_no_err _ _ s herr)
  · refine ⟨_, exec_load_of_legal s hpos hmax htap, rfl, rfl, rfl, rfl, Lfsr.getLsbD_loaded s.seed n k, ?_⟩
    obtain ⟨-, -, -, hdegen, -⟩ := statusWord_fields (s.setLfsr (Lfsr.loaded s.seed n k))
    exact hdegen.trans (Lfsr.ready_of_load s.seed n k hpos hmax htap).degen_eq

/-! ## STEP (R78) -/

/-- A keystream bit as STEP shows it in DOUT (R78). -/
def bitWord (b : Bool) : Word := if b then 1#32 else 0#32

theorem setWidth_ofBool (b : Bool) : (BitVec.ofBool b).setWidth 32 = bitWord b := by
  cases b <;> rfl

section
variable {s : State}

theorem exec_step_of_unseeded (hs : s.lfsr.seeded = false) : exec .step s = raise .notSeeded (encode .step) s :=
  if_neg (by simp [hs])

theorem exec_step_of_seeded (hs : s.lfsr.seeded = true) :
    exec .step s = .next { s with lfsr := (ksBit s.lfsr).2, dout := bitWord (ksBit s.lfsr).1 } := by
  rw [← setWidth_ofBool]
  exact if_pos hs

end

/-- Settles O28: the word, the illegal words, and the two outcomes of the SEEDED check. -/
theorem stepGivesOneKeystreamBit : Obligations.StepGivesOneKeystreamBit := by
  refine ⟨rfl, fun v => raisesIllegalCommand_of_reservedBit .step, fun s herr hs => ?_, fun s hs => ?_⟩
  · exact (exec_step_of_unseeded hs).trans (raise_of_no_err _ _ s herr)
  · exact ⟨exec_step_of_seeded hs, toNat_ksBit_kscount s.lfsr, Lfsr.feedback_of_degenerate⟩

/-! ## GEN (R79) -/

section
variable {w : BitCount} {s : State}

theorem exec_gen_of_unseeded (hs : s.lfsr.seeded = false) : exec (.gen w) s = raise .notSeeded (encode (.gen w)) s :=
  if_neg (by simp [hs])

theorem exec_gen_of_seeded (hs : s.lfsr.seeded = true) : exec (.gen w) s =
    .next { s with lfsr := (ksBits w.toNat s.lfsr).2, dout := BitVec.ofNat 32 (valMSB (ksBits w.toNat s.lfsr).1) } :=
  if_pos hs

end

/-- A value of at most 32 bits fits a word. -/
theorem toNat_ofNat_valMSB {bs : BitSeq} (h : bs.length ≤ 32) : (BitVec.ofNat 32 (valMSB bs)).toNat = valMSB bs := by
  rw [BitVec.toNat_ofNat]
  exact Nat.mod_eq_of_lt ((valMSB_lt bs).trans_le (Nat.pow_le_pow_right (by decide) h))

/-- Settles O29: the word, the illegal words, and the two outcomes of the SEEDED check; R79's loop is the value of the bits. -/
theorem genPacksKeystreamBits : Obligations.GenPacksKeystreamBits := by
  refine ⟨fun w => eq_zWord_add (by decide) (toNat_wWord Row.gen.opc w), fun v => raisesIllegalCommand_of_formatW .gen rfl,
    fun w s herr hs => ?_, fun w s hw hs => ⟨_, exec_gen_of_seeded hs, ?_⟩⟩
  · exact (exec_gen_of_unseeded hs).trans (raise_of_no_err _ _ s herr)
  · have hlen : (ksBits w.toNat s.lfsr).1.length = w.toNat := ksBits_length _ _
    rw [toNat_ofNat_valMSB (hlen.trans_le hw), foldl_bits, Nat.zero_mul, Nat.zero_add]
    exact ⟨rfl, (valMSB_lt _).trans_eq (congrArg (2 ^ ·) hlen)⟩

/-- n STEPs take n keystream bits and show them in order; DOUT is left with the last. -/
theorem execAll_step (n : Nat) (s : State) (hs : s.lfsr.seeded = true) :
    ∃ d : Word, execAll (List.replicate n .step) s =
      ((ksBits n s.lfsr).1.map bitWord, { s with lfsr := (ksBits n s.lfsr).2, dout := d }) := by
  induction n generalizing s with
  | zero => exact ⟨s.dout, rfl⟩
  | succ n ih =>
    obtain ⟨d, hd⟩ := ih { s with lfsr := (ksBit s.lfsr).2, dout := bitWord (ksBit s.lfsr).1 } hs
    exact ⟨d, by rw [List.replicate_succ, execAll_cons (exec_step_of_seeded hs), hd]; rfl⟩

/-- The bits of a sequence, read from the word that holds its value (R11). -/
theorem eq_map_getLsbD_ofNat_valMSB {bs : BitSeq} (h : bs.length ≤ 32) :
    bs = (List.range bs.length).map fun i => (BitVec.ofNat 32 (valMSB bs)).getLsbD (bs.length - 1 - i) := by
  simp only [BitVec.getLsbD, toNat_ofNat_valMSB h]
  rw [← seqMSB_eq_map_range, seqMSB_valMSB]

/-- Settles O30: GEN W and W STEPs take the same bits, and the result of GEN holds them in order. -/
theorem genEqualsRepeatedSteps : Obligations.GenEqualsRepeatedSteps := by
  intro w s hw hs
  obtain ⟨d, hsteps⟩ := execAll_step w.toNat s hs
  refine ⟨_, _, d, exec_gen_of_seeded hs, hsteps.trans (congrArg (·, _) ?_)⟩
  have hlen : (ksBits w.toNat s.lfsr).1.length = w.toNat := ksBits_length _ _
  have hbits := eq_map_getLsbD_ofNat_valMSB (hlen.trans_le hw)
  rw [hlen] at hbits
  exact (congrArg (List.map bitWord) hbits).trans List.map_map

end Sys2Proof.Machine
end

section
/-! PROOFS. The laws of the generator: the keystream as a linear recurrence (42_lfsr.md R81), its zero cases (R80, R83), what it
depends on (R82, R114), and the step map (R84). -/

namespace Sys2Proof.Machine

/-! ## The register as a window on one sequence (R81) -/

/-- The register's elements ST[0], ..., ST[AN-1]. -/
def Lfsr.elements {w : Nat} (l : Lfsr w) : BitSeq := (List.range l.an.toNat).map fun i => l.st.getLsbD i

section
variable {w : Nat}

@[simp] theorem Lfsr.elements_length (l : Lfsr w) : l.elements.length = l.an.toNat := by simp [Lfsr.elements]

theorem Lfsr.getD_elements (l : Lfsr w) {i : Nat} (hi : i < l.an.toNat) : l.elements.getD i false = l.st.getLsbD i := by
  simp [Lfsr.elements, List.getD_eq_getElem?_getD, hi]

/-- A step takes the first element away and adds the keystream bit behind the last (R76). -/
theorem elements_ksBit {l : Lfsr w} (h : l.Ready) : (ksBit l).2.elements = l.elements.drop 1 ++ [(ksBit l).1] := by
  have hpos := h.length_pos
  refine List.ext_getElem (by simp; omega) fun i hi _ => ?_
  have hi : i < l.an.toNat := by simpa using hi
  rw [List.getElem_append]
  split
  · rename_i hlt
    have hlt : i < l.an.toNat - 1 := by simpa using hlt
    simp [Lfsr.elements, getLsbD_ksBit l h, hlt.ne]
  · rename_i hge
    have hge : l.an.toNat - 1 ≤ i := by simpa using hge
    have heq : i = l.an.toNat - 1 := by omega
    simp [Lfsr.elements, getLsbD_ksBit l h, heq]

/-- After t steps the register's elements and the bits still to come are the same sequence from its t-th place on (R81). -/
theorem drop_elements_append_ksBits (t m : Nat) {l : Lfsr w} (h : l.Ready) :
    (l.elements ++ (ksBits (t + m) l).1).drop t = (ksBits t l).2.elements ++ (ksBits m (ksBits t l).2).1 := by
  induction t generalizing l with
  | zero => simp
  | succ t ih =>
    have hone : 1 ≤ l.elements.length := by simpa using h.length_pos
    rw [Nat.succ_add, ksBits_succ, ksBits_succ, ← ih (ksBit_ready l h), elements_ksBit h, Nat.add_comm t 1, ← List.drop_drop,
      List.drop_append_of_le_length hone, List.append_assoc, List.singleton_append]

/-- Before the t-th step the register holds `ST[i] = s_(t+i)` (R81). -/
theorem getLsbD_ksBits {l : Lfsr w} (h : l.Ready) {t T i : Nat} (ht : t ≤ T) (hi : i < l.an.toNat) :
    (ksBits t l).2.st.getLsbD i = (l.elements ++ (ksBits T l).1).getD (t + i) false := by
  obtain ⟨m, rfl⟩ := Nat.exists_eq_add_of_le ht
  have hi' : i < (ksBits t l).2.an.toNat := by rwa [ksBits_an]
  rw [← Lfsr.getD_elements _ hi', List.getD_eq_getElem?_getD, List.getD_eq_getElem?_getD, ← List.getElem?_drop,
    drop_elements_append_ksBits t m h, List.getElem?_append_left (by simpa using hi)]

/-- The t-th keystream bit is the feedback of the register after t steps. -/
theorem getD_elements_append_ksBits {l : Lfsr w} {t T : Nat} (ht : t < T) :
    (l.elements ++ (ksBits T l).1).getD (l.an.toNat + t) false = (ksBits t l).2.feedback := by
  obtain ⟨m, rfl⟩ := Nat.exists_eq_add_of_lt ht
  rw [Nat.add_assoc, ksBits_add, ksBits_succ, List.getD_eq_getElem?_getD, List.getElem?_append_right (by simp)]
  simp

/-- Settles O53: each new bit is the feedback of the register, which is a window on the sequence. -/
theorem keystreamIsALinearRecurrence : Obligations.KeystreamIsALinearRecurrence := by
  intro w l T h
  refine ⟨fun n hn hnT => ?_, fun t ht i hi => getLsbD_ksBits h ht hi⟩
  obtain ⟨t, rfl⟩ := Nat.exists_eq_add_of_le hn
  have hpos := h.length_pos
  have ht : t < T := by omega
  have hlast : l.an.toNat + t - 1 = t + (l.an.toNat - 1) := by omega
  have htap : l.an.toNat + t - l.an.toNat + l.ak.toNat = t + l.ak.toNat := by omega
  refine (getD_elements_append_ksBits ht).trans ?_
  rw [Lfsr.feedback, ksBits_an, ksBits_ak, getLsbD_ksBits h ht.le (by omega), getLsbD_ksBits h ht.le h.tap_lt, hlast, htap]
  rfl

end

/-! ## Keystreams of zeros (R80, R83) -/

section
variable {w : Nat}

/-- If a property makes the feedback 0 and every step keeps it, the keystream is all zeros. -/
theorem ksBits_eq_zeros {P : Lfsr w → Prop} (hzero : ∀ l, P l → l.feedback = false) (hkeep : ∀ l, P l → P (ksBit l).2)
    {l : Lfsr w} (hl : P l) (n : Nat) : (ksBits n l).1 = List.replicate n false := by
  induction n generalizing l with
  | zero => rfl
  | succ n ih => rw [ksBits_succ, ih (hkeep l hl), ksBit_fst, hzero l hl, List.replicate_succ]

theorem ksBits_of_degenerate {l : Lfsr w} (htap : l.ak.toNat = l.an.toNat - 1) (n : Nat) :
    (ksBits n l).1 = List.replicate n false :=
  ksBits_eq_zeros (P := fun l => l.ak.toNat = l.an.toNat - 1) (fun _ => Lfsr.feedback_of_degenerate) (fun _ => id) htap n

theorem Lfsr.feedback_of_zero {l : Lfsr w} (hst : l.st = 0#w) : l.feedback = false := by
  simp [Lfsr.feedback, hst]

theorem ksBit_st_of_zero {l : Lfsr w} (hst : l.st = 0#w) : (ksBit l).2.st = 0#w := by
  simp [ksBit, Lfsr.feedback_of_zero hst, hst]

theorem ksBits_of_zero {l : Lfsr w} (hst : l.st = 0#w) (n : Nat) : (ksBits n l).1 = List.replicate n false :=
  ksBits_eq_zeros (P := fun l => l.st = 0#w) (fun _ => Lfsr.feedback_of_zero) (fun _ => ksBit_st_of_zero) hst n

/-- A ready register whose AN elements are 0 is 0. -/
theorem Lfsr.Ready.st_eq_zero {l : Lfsr w} (h : l.Ready) (hzero : ∀ i, i < l.an.toNat → l.st.getLsbD i = false) : l.st = 0#w :=
  BitVec.eq_of_getLsbD_eq fun i _ => by
    rw [BitVec.getLsbD_zero]
    exact (lt_or_ge i l.an.toNat).elim (hzero i) (h.high_zero i)

/-- With the degenerate tap the zeros fill the register in AN steps (R80). -/
theorem ksBits_st_of_degenerate {l : Lfsr w} (h : l.Ready) (htap : l.ak.toNat = l.an.toNat - 1) {n : Nat} (hn : l.an.toNat ≤ n) :
    (ksBits n l).2.st = 0#w := by
  refine (ksBits_ready n l h).st_eq_zero fun i hi => ?_
  rw [ksBits_an] at hi
  rw [getLsbD_ksBits h le_rfl hi, ksBits_of_degenerate htap, List.getD_eq_getElem?_getD,
    List.getElem?_append_right (by simp; omega), List.getElem?_replicate]
  split <;> rfl

/-- XOR with zeros changes nothing (R80). -/
theorem xorSeq_zeros (bs : BitSeq) : xorSeq bs (List.replicate bs.length false) = bs := by
  induction bs with
  | nil => rfl
  | cons b bs ih => exact congrArg₂ List.cons (Bool.xor_false b) ih

end

section
variable {s : State} (hs : s.lfsr.seeded = true)
include hs

theorem exec_sxor_of_seeded : exec .sxor s =
    .next { s with lfsr := (ksBits s.bs.length s.lfsr).2, bs := xorSeq s.bs (ksBits s.bs.length s.lfsr).1 } := if_pos hs

theorem exec_crypt_of_seeded {c : Symbol} {g : Group} (hc : s2i c = some g) : exec (.crypt c) s =
    .next { s with
      lfsr := (ksBits 6 s.lfsr).2
      dout := (i2s (g ^^^ BitVec.ofNat 6 (valMSB (ksBits 6 s.lfsr).1))).setWidth 32 } := by
  rw [exec, execCrypt, if_pos hs, hc]
  rfl

end

/-- Settles O52: the feedback is 0 whatever the register holds, so every keystream bit is 0 and the register fills with zeros. -/
theorem degenerateTapGivesZeroKeystream : Obligations.DegenerateTapGivesZeroKeystream := by
  refine ⟨fun n k s hpos hmax htap => ?_, fun w l n h htap => ?_, fun s h htap => ⟨?_, ?_, fun c g hc => ?_⟩⟩
  · exact ⟨_, exec_load_of_legal s hpos hmax (by omega), Lfsr.ready_of_load s.seed n k hpos hmax (by omega), htap⟩
  · have htap : l.ak.toNat = l.an.toNat - 1 := by omega
    exact ⟨ksBits_of_degenerate htap n, ksBits_st_of_degenerate h htap⟩
  · obtain ⟨-, -, -, hdegen, -⟩ := statusWord_fields s
    rw [hdegen, h.degen_eq, decide_eq_true htap]
  · refine ⟨(ksBits s.bs.length s.lfsr).2, ?_⟩
    rw [exec_sxor_of_seeded h.seeded, ksBits_of_degenerate (by omega), xorSeq_zeros]
  · have hval : valMSB (List.replicate 6 false) = 0 := rfl
    refine ⟨(ksBits 6 s.lfsr).2, ?_⟩
    rw [exec_crypt_of_seeded h.seeded hc, ksBits_of_degenerate (by omega), hval, BitVec.xor_zero, i2s_of_s2i c g hc]

/-- Settles O55: a ready register with its elements 0 is 0, and LOAD of a seed of zeros makes one. -/
theorem allZeroRegisterStaysZero : Obligations.AllZeroRegisterStaysZero := by
  refine ⟨fun w l h hzero => ?_, fun s n k hseed hpos hmax htap => ?_⟩
  · have hst := h.st_eq_zero hzero
    exact ⟨Lfsr.feedback_of_zero hst, ksBit_st_of_zero hst⟩
  · refine ⟨_, exec_load_of_legal s hpos hmax htap, ksBits_of_zero ?_⟩
    refine (Lfsr.ready_of_load s.seed n k hpos hmax htap).st_eq_zero fun i hi => ?_
    exact (Lfsr.getLsbD_loaded s.seed n k i).trans ((if_pos hi).trans (hseed i hi))

/-! ## What the keystream depends on (R82, R84) -/

/-- Two generators, of whatever blocks, that a keystream cannot tell apart: one length, one tap, one register. -/
structure Lfsr.Agree {w w' : Nat} (l : Lfsr w) (l' : Lfsr w') : Prop where
  length : l.an = l'.an
  tap : l.ak = l'.ak
  register : ∀ i, l.st.getLsbD i = l'.st.getLsbD i

section
variable {w w' : Nat} {l : Lfsr w} {l' : Lfsr w'} (h : l.Ready) (h' : l'.Ready)

theorem Lfsr.Agree.feedback_eq (ha : l.Agree l') : l.feedback = l'.feedback := by
  rw [Lfsr.feedback, Lfsr.feedback, ha.length, ha.tap, ha.register, ha.register]

include h h'

theorem agree_ksBit (ha : l.Agree l') : (ksBit l).2.Agree (ksBit l').2 where
  length := ha.length
  tap := ha.tap
  register i := by rw [getLsbD_ksBit l h, getLsbD_ksBit l' h', ha.length, ha.feedback_eq, ha.register]

/-- Generators that agree emit the same bits and still agree after them. -/
theorem agree_ksBits (ha : l.Agree l') (m : Nat) :
    (ksBits m l).1 = (ksBits m l').1 ∧ (ksBits m l).2.Agree (ksBits m l').2 := by
  induction m generalizing l l' with
  | zero => exact ⟨rfl, ha⟩
  | succ m ih =>
    obtain ⟨hbits, hagree⟩ := ih (ksBit_ready l h) (ksBit_ready l' h') (agree_ksBit h h' ha)
    exact ⟨congrArg₂ List.cons ha.feedback_eq hbits, hagree⟩

end

/-- Settles O54: LOAD makes generators that agree, and looks at nothing of the generator before it. -/
theorem keystreamDependsOnlyOnSeedLengthAndTap : Obligations.KeystreamDependsOnlyOnSeedLengthAndTap := by
  refine ⟨fun s s' n k hpos hmax hmax' htap hseed => ?_, fun s n k m hpos hmax htap => ?_⟩
  · have h := Lfsr.ready_of_load s.seed n k hpos hmax htap
    have h' := Lfsr.ready_of_load s'.seed n k hpos hmax' htap
    have hload : (Lfsr.loaded s.seed n k).Agree (Lfsr.loaded s'.seed n k) :=
      ⟨rfl, rfl, fun i => by rw [Lfsr.getLsbD_loaded, Lfsr.getLsbD_loaded]; exact ite_congr rfl (hseed i) fun _ => rfl⟩
    refine ⟨_, _, exec_load_of_legal s hpos hmax htap, exec_load_of_legal s' hpos hmax' htap, fun m => ?_⟩
    obtain ⟨hbits, hagree⟩ := agree_ksBits h h' hload m
    exact ⟨hbits, by rw [ksBits_kscount, ksBits_kscount]; rfl, hagree.register⟩
  · exact ⟨_, exec_load_of_legal s hpos hmax htap,
      exec_load_of_legal { s with lfsr := (ksBits m (Lfsr.loaded s.seed n k)).2 } hpos hmax htap⟩

/-- Settles O57: neither the feedback nor the shift uses element 0, so one step makes generators that agree. -/
theorem firstElementNeverReachesKeystream : Obligations.FirstElementNeverReachesKeystream := by
  intro w l l' h h' han hak hcase hrest
  have htap := h.tap_lt
  have hfeedback : l.feedback = l'.feedback := by
    obtain hk | hn := hcase
    · rw [Lfsr.feedback, Lfsr.feedback, ← han, ← hak, hrest _ hk, hrest _ (by omega)]
    · have hdeg : l.ak.toNat = l.an.toNat - 1 := by omega
      rw [Lfsr.feedback_of_degenerate hdeg, Lfsr.feedback_of_degenerate (l := l') (by rwa [← hak, ← han])]
  have hagree : (ksBit l).2.Agree (ksBit l').2 :=
    ⟨han, hak, fun i => by rw [getLsbD_ksBit l h, getLsbD_ksBit l' h', han, hfeedback, hrest _ (Nat.le_add_left 1 i)]⟩
  refine ⟨BitVec.eq_of_getLsbD_eq fun i _ => hagree.register i, fun m => ?_⟩
  cases m with
  | zero => rfl
  | succ m => exact congrArg₂ List.cons hfeedback (agree_ksBits (ksBit_ready l h) (ksBit_ready l' h') hagree m).1

/-! ## The step map for AK = 0 (R84) -/

section
variable {w : Nat}

/-- The bit a step drops stands in the register after it, as the difference of its last two elements. -/
theorem getLsbD_zero_of_ksBit {l : Lfsr w} (h : l.Ready) (hlen : 2 ≤ l.an.toNat) (htap : l.ak.toNat = 0) :
    l.st.getLsbD 0 = ((ksBit l).2.st.getLsbD (l.an.toNat - 1) ^^ (ksBit l).2.st.getLsbD (l.an.toNat - 2)) := by
  have hne : l.an.toNat - 2 ≠ l.an.toNat - 1 := by omega
  have hsucc : l.an.toNat - 2 + 1 = l.an.toNat - 1 := by omega
  rw [getLsbD_ksBit l h, getLsbD_ksBit l h, if_pos rfl, if_neg hne, hsucc, Lfsr.feedback, htap]
  cases l.st.getLsbD (l.an.toNat - 1) <;> simp

section
variable {l l' : Lfsr w} (h : l.Ready) (h' : l'.Ready) (han : l.an = l'.an) (hlen : 2 ≤ l.an.toNat) (htap : l.ak.toNat = 0)
  (htap' : l'.ak.toNat = 0)
include h h' han hlen htap htap'

/-- The step map is injective: element 0 is the dropped bit, and the others are shifted. -/
theorem st_eq_of_ksBit_st_eq (hst : (ksBit l).2.st = (ksBit l').2.st) : l.st = l'.st := by
  refine BitVec.eq_of_getLsbD_eq fun i _ => ?_
  cases i with
  | zero => rw [getLsbD_zero_of_ksBit h hlen htap, getLsbD_zero_of_ksBit h' (han ▸ hlen) htap', hst, han]
  | succ i =>
    obtain heq | hne := eq_or_ne i (l.an.toNat - 1)
    · rw [h.high_zero _ (by omega), h'.high_zero _ (by rw [← han]; omega)]
    · have hbit := congrArg (·.getLsbD i) hst
      simpa [getLsbD_ksBit l h, getLsbD_ksBit l' h', ← han, hne] using hbit

theorem st_eq_of_ksBits_st_eq {n : Nat} (hst : (ksBits n l).2.st = (ksBits n l').2.st) : l.st = l'.st := by
  induction n generalizing l l' with
  | zero => exact hst
  | succ n ih =>
    exact st_eq_of_ksBit_st_eq h h' han hlen htap htap'
      (ih (ksBit_ready l h) (ksBit_ready l' h') han hlen htap htap' hst)

end

/-- After AN steps the register's elements are the keystream bits. -/
theorem elements_ksBits_length {l : Lfsr w} (h : l.Ready) : (ksBits l.an.toNat l).2.elements = (ksBits l.an.toNat l).1 := by
  have hdrop := drop_elements_append_ksBits l.an.toNat 0 h
  rwa [Nat.add_zero, List.drop_left' l.elements_length, ksBits_zero, List.append_nil, eq_comm] at hdrop

/-- A ready register is what its elements say. -/
theorem st_eq_of_elements_eq {l l' : Lfsr w} (h : l.Ready) (h' : l'.Ready) (han : l.an = l'.an) (he : l.elements = l'.elements) :
    l.st = l'.st := by
  refine BitVec.eq_of_getLsbD_eq fun i _ => ?_
  obtain hlt | hge := lt_or_ge i l.an.toNat
  · rw [← l.getD_elements hlt, he, l'.getD_elements (han ▸ hlt)]
  · rw [h.high_zero i hge, h'.high_zero i (han ▸ hge)]

/-- A generator stays ready when its register is replaced by that of a ready one of the same length. -/
theorem Lfsr.Ready.withSt {l m : Lfsr w} (h : l.Ready) (hm : m.Ready) (han : m.an = l.an) :
    ({ l with st := m.st } : Lfsr w).Ready where
  seeded := h.seeded
  length_pos := h.length_pos
  length_le := h.length_le
  tap_lt := h.tap_lt
  high_zero i hi := hm.high_zero i (han ▸ hi)

/-- The step map on the registers that are ready with l's length and tap (R84). -/
def stepMap (l : Lfsr w) (h : l.Ready) (x : { x : BitVec w // ({ l with st := x } : Lfsr w).Ready }) :
    { x : BitVec w // ({ l with st := x } : Lfsr w).Ready } :=
  ⟨(ksBit { l with st := x.1 }).2.st, h.withSt (ksBit_ready _ x.2) rfl⟩

/-- The step map is onto, since it is injective on a finite set. -/
theorem exists_ksBit_st_eq {l : Lfsr w} (h : l.Ready) (hlen : 2 ≤ l.an.toNat) (htap : l.ak.toNat = 0) :
    ∃ x : BitVec w, ({ l with st := x } : Lfsr w).Ready ∧ (ksBit { l with st := x }).2.st = l.st := by
  have hinj : Function.Injective (stepMap l h) := fun x y hxy =>
    Subtype.ext (st_eq_of_ksBit_st_eq x.2 y.2 rfl hlen htap htap (congrArg Subtype.val hxy))
  obtain ⟨x, hx⟩ := Finite.injective_iff_surjective.mp hinj ⟨l.st, h⟩
  exact ⟨x.1, x.2, congrArg Subtype.val hx⟩

end

/-- Settles O56: the dropped bit is recovered, so the step map is injective, and AN keystream bits are the register AN steps on. -/
theorem stepMapIsBijectiveForTapZero : Obligations.StepMapIsBijectiveForTapZero := by
  refine ⟨fun w l => getLsbD_zero_of_ksBit, fun w l l' => st_eq_of_ksBit_st_eq, fun w l => exists_ksBit_st_eq,
    fun w l l' h h' han hlen htap htap' hne hbits => hne ?_⟩
  have helements : (ksBits l.an.toNat l).2.elements = (ksBits l.an.toNat l').2.elements := by
    rw [elements_ksBits_length h, hbits, han, elements_ksBits_length h']
  exact st_eq_of_ksBits_st_eq h h' han hlen htap htap'
    (st_eq_of_elements_eq (ksBits_ready _ l h) (ksBits_ready _ l' h') (by simpa using han) helements)

end Sys2Proof.Machine
end

section
/-! PROOFS. XOR, SXOR and CRYPT (43_xor_crypt.md R85 to R87), that each combination with the keystream undoes itself (R89, R93), and
whole messages through the buffer and symbol by symbol (R88, R89). -/

namespace Sys2Proof.Machine

/-! ## Combining sequences and groups -/

theorem getD_xorSeq {a b : BitSeq} (h : a.length = b.length) (i : Nat) :
    (xorSeq a b).getD i false = (a.getD i false ^^ b.getD i false) := by
  rw [xorSeq, List.getD_eq_getElem?_getD, List.getElem?_zipWith, List.getD_eq_getElem?_getD, List.getD_eq_getElem?_getD]
  obtain hi | hi := lt_or_ge i a.length
  · rw [List.getElem?_eq_getElem hi, List.getElem?_eq_getElem (h ▸ hi)]
    rfl
  · rw [List.getElem?_eq_none hi, List.getElem?_eq_none (h ▸ hi)]
    rfl

/-- XOR of sequences is XOR of their values, bit by bit (R11, R85). -/
theorem xorSeq_seqMSB (a b w : Nat) : xorSeq (seqMSB a w) (seqMSB b w) = seqMSB (a ^^^ b) w := by
  induction w with
  | zero => rfl
  | succ w ih => exact congrArg₂ List.cons (Nat.testBit_xor a b w).symm ih

theorem group_xor_xor_cancel (g k : Group) : g ^^^ k ^^^ k = g := by
  rw [BitVec.xor_assoc, BitVec.xor_self, BitVec.xor_zero]

/-! ## The keystream as groups -/

/-- The next six keystream bits as an index, the first one most significant: the `ks` of R87. -/
def ksGroup {w : Nat} (l : Lfsr w) : Group := BitVec.ofNat 6 (valMSB (ksBits 6 l).1)

/-- A list of groups combined with the keystream: group j meets keystream bits 6j to 6j+5 (R88). -/
def cryptGroups {w : Nat} : List Group → Lfsr w → List Group
  | [], _ => []
  | g :: gs, l => (g ^^^ ksGroup l) :: cryptGroups gs (ksBits 6 l).2

section
variable {w : Nat} (l : Lfsr w)

theorem toNat_ksGroup : (ksGroup l).toNat = valMSB (ksBits 6 l).1 := by
  have hlt := valMSB_lt (ksBits 6 l).1
  rw [ksBits_length] at hlt
  exact Nat.mod_eq_of_lt hlt

theorem seqMSB_ksGroup : seqMSB (ksGroup l).toNat 6 = (ksBits 6 l).1 := by
  simpa only [toNat_ksGroup, ksBits_length] using seqMSB_valMSB (ksBits 6 l).1

theorem toNat_ksBits_kscount (n : Nat) : (ksBits n l).2.kscount.toNat = (l.kscount.toNat + n) % 2 ^ 32 := by
  rw [ksBits_kscount, BitVec.toNat_add, BitVec.toNat_ofNat, Nat.add_mod_mod]

theorem xorSeq_ksBits_length (bs : BitSeq) : (xorSeq bs (ksBits bs.length l).1).length = bs.length := by
  rw [xorSeq_length, ksBits_length, Nat.min_self]

@[simp] theorem cryptGroups_length (gs : List Group) : (cryptGroups gs l).length = gs.length := by
  induction gs generalizing l with
  | nil => rfl
  | cons g gs ih => exact congrArg (· + 1) (ih _)

/-- Combining twice with one keystream gives the groups back (R89). -/
theorem cryptGroups_cryptGroups (gs : List Group) : cryptGroups (cryptGroups gs l) l = gs := by
  induction gs generalizing l with
  | nil => rfl
  | cons g gs ih => exact congrArg₂ List.cons (group_xor_xor_cancel g _) (ih _)

/-- Combining a buffer of groups bit by bit is combining it group by group (R88). -/
theorem xorSeq_groupBits (gs : List Group) :
    xorSeq (groupBits gs) (ksBits (6 * gs.length) l).1 = groupBits (cryptGroups gs l) := by
  induction gs generalizing l with
  | nil => rfl
  | cons g gs ih =>
    have hlen : (seqMSB g.toNat 6).length = (ksBits 6 l).1.length := by rw [seqMSB_length, ksBits_length]
    have hgroup : xorSeq (seqMSB g.toNat 6) (ksBits 6 l).1 = seqMSB (g ^^^ ksGroup l).toNat 6 := by
      rw [← seqMSB_ksGroup, xorSeq_seqMSB, BitVec.toNat_xor]
    rw [List.length_cons, Nat.mul_succ, Nat.add_comm, ksBits_add, groupBits_cons, xorSeq_append _ _ _ _ hlen, hgroup, ih]
    rfl

end

/-! ## XOR (R85) -/

theorem xWord_eq_add (opc : BitVec 8) (la lb : BitCount) :
    xWord opc la lb = zWord opc + lb.setWidth 32 * 0x40#32 + la.setWidth 32 := by
  have hopc := opc.isLt
  have hla := la.isLt
  have hlb := lb.isLt
  rw [← BitVec.toNat_inj, toNat_xWord, BitVec.toNat_add, BitVec.toNat_add, BitVec.toNat_mul, toNat_zWord,
    BitVec.toNat_setWidth, BitVec.toNat_setWidth, BitVec.toNat_ofNat]
  omega

theorem raisesIllegalCommand_of_formatX {v : Word} (r : Row) (hformat : r.format = .x) (hopc : opcField v = r.opc)
    (h : v.extractLsb' 12 12 ≠ 0#12 ∨ 33 ≤ (v.extractLsb' 0 6).toNat ∨ 33 ≤ (v.extractLsb' 6 6).toNat) :
    RaisesIllegalCommand v := by
  obtain hres | hcount := h
  · exact raisesIllegalCommand_of_reservedBit r hopc (by rw [hformat]; exact hres)
  · have ⟨_, hdec⟩ := (decode_error_reasons v).mpr (.inr (.inr (.inr ⟨r, hopc, hformat, hcount⟩)))
    exact raisesIllegalCommand_of_error hdec

theorem exec_xor_of_ne {la lb : BitCount} (s : State) (h : la ≠ lb) :
    exec (.xor la lb) s = raise .lengthMismatch (encode (.xor la lb)) s := if_pos h

theorem exec_xor_self (la : BitCount) (s : State) :
    exec (.xor la la) s = .next { s with dout := (s.din ^^^ s.dinb) &&& lowMask la.toNat } := if_neg (not_not_intro rfl)

theorem getLsbD_and_lowMask (v : Word) {n : Nat} (hn : n ≤ 32) (i : Nat) :
    (v &&& lowMask n).getLsbD i = (decide (i < n) && v.getLsbD i) := by
  rw [BitVec.getLsbD_and, getLsbD_lowMask n i hn, Bool.and_comm]

/-- Settles O42: the word, the illegal words, the two outcomes of the length check, and DINB combined twice below LA. -/
theorem xorCombinesEqualLengths : Obligations.XorCombinesEqualLengths := by
  refine ⟨xWord_eq_add Row.xor.opc, fun v => raisesIllegalCommand_of_formatX .xor rfl,
    fun la lb s herr hne => (exec_xor_of_ne s hne).trans (raise_of_no_err _ _ s herr),
    fun la s hla => ⟨_, exec_xor_self la s, fun i _ => ?_, _, exec_xor_self la _, fun i _ => ?_⟩⟩
  · rw [getLsbD_and_lowMask _ hla, BitVec.getLsbD_xor]
  · rw [getLsbD_and_lowMask _ hla, BitVec.getLsbD_xor, getLsbD_and_lowMask _ hla, BitVec.getLsbD_xor]
    cases decide (i < la.toNat) with
    | false => rfl
    | true => simp only [Bool.true_and, Bool.xor_assoc, Bool.xor_self, Bool.xor_false]

/-! ## SXOR (R86) -/

theorem exec_sxor_of_unseeded {s : State} (hs : s.lfsr.seeded = false) : exec .sxor s = raise .notSeeded (encode .sxor) s :=
  if_neg (by simp [hs])

/-- Settles O43: the word, the illegal words, and the two outcomes of the SEEDED check. -/
theorem sxorCombinesTheBufferWithKeystream : Obligations.SxorCombinesTheBufferWithKeystream := by
  refine ⟨rfl, fun v => raisesIllegalCommand_of_reservedBit .sxor,
    fun s herr hs => (exec_sxor_of_unseeded hs).trans (raise_of_no_err _ _ s herr), fun s hs => ?_⟩
  exact ⟨_, _, exec_sxor_of_seeded hs, rfl, xorSeq_ksBits_length s.lfsr s.bs,
    fun i _ => getD_xorSeq (ksBits_length _ _).symm i, toNat_ksBits_kscount s.lfsr _⟩

/-- Settles O46: the result has the buffer's length, so the second SXOR takes the same keystream bits. -/
theorem sxorIsItsOwnInverse : Obligations.SxorIsItsOwnInverse := by
  intro s hs
  have hback := xorSeq_xorSeq s.bs (ksBits s.bs.length s.lfsr).1 (ksBits_length _ _).symm
  refine ⟨_, _, exec_sxor_of_seeded hs, (exec_sxor_of_seeded (by exact hs)).trans ?_⟩
  simp only [xorSeq_ksBits_length, hback]

/-! ## CRYPT (R87) -/

theorem exec_crypt_of_unseeded {c : Symbol} {s : State} (hs : s.lfsr.seeded = false) :
    exec (.crypt c) s = raise .notSeeded (encode (.crypt c)) s := if_neg (by simp [hs])

theorem exec_crypt_of_none {c : Symbol} {s : State} (hs : s.lfsr.seeded = true) (hc : s2i c = none) :
    exec (.crypt c) s = raise .invalidSymbol (encode (.crypt c)) s := by
  rw [exec, execCrypt, if_pos hs, hc]

/-- CRYPT of the symbol of a group gives the symbol of the group combined with the keystream's next one. -/
theorem exec_crypt_i2s (g : Group) {s : State} (hs : s.lfsr.seeded = true) : exec (.crypt (i2s g)) s =
    .next { s with lfsr := (ksBits 6 s.lfsr).2, dout := (i2s (g ^^^ ksGroup s.lfsr)).setWidth 32 } :=
  exec_crypt_of_seeded hs (s2i_i2s g)

/-- Settles O44: the word, the illegal words, and the outcomes of the two checks; R87's loop is the value of the bits. -/
theorem cryptCombinesOneSymbolWithKeystream : Obligations.CryptCombinesOneSymbolWithKeystream := by
  refine ⟨fun c => eq_zWord_add (by decide) (toNat_sWord Row.crypt.opc c), fun v => raisesIllegalCommand_of_reservedBit .crypt,
    fun c s herr hs => (exec_crypt_of_unseeded hs).trans (raise_of_no_err _ _ s herr),
    fun c s herr hs hc => (exec_crypt_of_none hs hc).trans (raise_of_no_err _ _ s herr),
    fun c g s hs hc => ⟨ksGroup s.lfsr, exec_crypt_of_seeded hs hc, ?_, toNat_ksBits_kscount s.lfsr 6⟩⟩
  rw [toNat_ksGroup, foldl_bits, Nat.zero_mul, Nat.zero_add]

/-- Settles O45: the group combined twice with one keystream group is the group. -/
theorem cryptIsItsOwnInverse : Obligations.CryptIsItsOwnInverse := by
  intro c g s hs hc
  refine ⟨_, _, exec_crypt_of_seeded hs hc, (exec_crypt_i2s (g ^^^ ksGroup s.lfsr) hs).trans ?_⟩
  rw [group_xor_xor_cancel, i2s_of_s2i c g hc]

/-- Settles O47: both ciphertext groups are combined with the one keystream group, which their XOR cancels. -/
theorem keystreamReuseShowsPlaintextXor : Obligations.KeystreamReuseShowsPlaintextXor := by
  intro c c' g g' s hs hc hc'
  refine ⟨_, _, g ^^^ ksGroup s.lfsr, g' ^^^ ksGroup s.lfsr, _, exec_crypt_of_seeded hs hc, exec_crypt_of_seeded hs hc',
    s2i_i2s _, s2i_i2s _, ?_⟩
  rw [BitVec.xor_comm g', ← BitVec.xor_assoc, group_xor_xor_cancel]

/-! ## Messages (R88, R89) -/

/-- CRYPT of each symbol of a message combines its groups with the keystream, and changes the generator and DOUT only. -/
theorem execAll_crypt (gs : List Group) (s : State) (hs : s.lfsr.seeded = true) :
    ∃ d : Word, execAll ((gs.map i2s).map .crypt) s =
      (((cryptGroups gs s.lfsr).map i2s).map fun c => c.setWidth 32,
        { s with lfsr := (ksBits (6 * gs.length) s.lfsr).2, dout := d }) := by
  induction gs generalizing s with
  | nil => exact ⟨s.dout, rfl⟩
  | cons g gs ih =>
    obtain ⟨d, hd⟩ := ih { s with lfsr := (ksBits 6 s.lfsr).2, dout := (i2s (g ^^^ ksGroup s.lfsr)).setWidth 32 }
      ((ksBits_seeded 6 s.lfsr).trans hs)
    refine ⟨d, ?_⟩
    rw [List.map_cons, List.map_cons, execAll_cons (exec_crypt_i2s g hs), hd, List.length_cons, Nat.mul_succ, Nat.add_comm,
      ksBits_add]
    rfl

/-- LOAD and CRYPT of each symbol: LOAD leaves DOUT, and the message meets the keystream of the generator LOAD makes. -/
theorem execAll_load_crypt {n k : LfsrIndex} {s : State} (hpos : 1 ≤ n.toNat) (hmax : n.toNat ≤ s.params.nmax)
    (htap : k.toNat < n.toNat) (gs : List Group) :
    ∃ d : Word, execAll (.load n k :: (gs.map i2s).map .crypt) s =
      (s.dout :: ((cryptGroups gs (Lfsr.loaded s.seed n k)).map i2s).map fun c => c.setWidth 32,
        { s with lfsr := (ksBits (6 * gs.length) (Lfsr.loaded s.seed n k)).2, dout := d }) := by
  obtain ⟨d, hd⟩ := execAll_crypt gs (s.setLfsr (Lfsr.loaded s.seed n k)) rfl
  exact ⟨d, by rw [execAll_cons (exec_load_of_legal s hpos hmax htap), hd]; rfl⟩

/-- SXOR of a buffer that holds groups leaves it with the groups combined with the keystream. -/
theorem exec_sxor_of_groups {s : State} {gs : List Group} (hs : s.lfsr.seeded = true) (hbs : s.bs = groupBits gs) :
    exec .sxor s =
      .next { s with lfsr := (ksBits (6 * gs.length) s.lfsr).2, bs := groupBits (cryptGroups gs s.lfsr) } := by
  rw [exec_sxor_of_seeded hs, hbs, groupBits_length, xorSeq_groupBits]

/-- SXOR, SCHK and one SPOP for each of the buffer's groups: the groups combined with the keystream come out as symbols. -/
theorem execAll_sxor_spop {s : State} {gs : List Group} (hs : s.lfsr.seeded = true) (hbs : s.bs = groupBits gs) :
    ∃ d : Word, execAll (.sxor :: .schk :: List.replicate gs.length .spop) s =
      (s.dout :: BitVec.ofNat 32 gs.length :: ((cryptGroups gs s.lfsr).map i2s).map fun c => c.setWidth 32,
        { s with lfsr := (ksBits (6 * gs.length) s.lfsr).2, bs := [], dout := d }) := by
  have hchk := exec_schk_of_groups (gs := cryptGroups gs s.lfsr)
    (s := { s with lfsr := (ksBits (6 * gs.length) s.lfsr).2, bs := groupBits (cryptGroups gs s.lfsr) }) rfl
  obtain ⟨d, hpop⟩ := execAll_spop (cryptGroups gs s.lfsr) [] (State.setDout (BitVec.ofNat 32 gs.length)
    { s with lfsr := (ksBits (6 * gs.length) s.lfsr).2, bs := groupBits (cryptGroups gs s.lfsr) }) (List.append_nil _).symm
  rw [cryptGroups_length] at hchk hpop
  exact ⟨d, by rw [execAll_cons (exec_sxor_of_groups hs hbs), execAll_cons hchk, hpop]; rfl⟩

/-- The whole stream path (R88): DOUT keeps its value until SCHK counts the groups, and then shows the symbols one by one. -/
theorem execAll_load_stream {n k : LfsrIndex} {s : State} (hpos : 1 ≤ n.toNat) (hmax : n.toNat ≤ s.params.nmax)
    (htap : k.toNat < n.toNat) {gs : List Group} (hfit : 6 * gs.length ≤ s.params.bsmax) :
    ∃ d : Word,
      execAll (.load n k :: .sclr :: ((gs.map i2s).map .spush ++ .sxor :: .schk :: List.replicate gs.length .spop)) s =
        (List.replicate (gs.length + 3) s.dout ++ BitVec.ofNat 32 gs.length ::
            ((cryptGroups gs (Lfsr.loaded s.seed n k)).map i2s).map fun c => c.setWidth 32,
          { s with lfsr := (ksBits (6 * gs.length) (Lfsr.loaded s.seed n k)).2, bs := [], dout := d }) := by
  have hload := exec_load_of_legal s hpos hmax htap
  have hclr : exec .sclr (s.setLfsr (Lfsr.loaded s.seed n k)) = .next ((s.setLfsr (Lfsr.loaded s.seed n k)).setBs []) := rfl
  have hpush := execAll_spush gs ((s.setLfsr (Lfsr.loaded s.seed n k)).setBs []) (by simpa using hfit)
  rw [State.setBs_bs, List.nil_append, State.setBs_setBs] at hpush
  obtain ⟨d, hstream⟩ := execAll_sxor_spop (s := (s.setLfsr (Lfsr.loaded s.seed n k)).setBs (groupBits gs)) rfl rfl
  refine ⟨d, ?_⟩
  rw [execAll_cons hload, execAll_cons hclr, execAll_append, hpush, hstream, List.replicate_succ, List.replicate_succ,
    List.replicate_succ', List.cons_append, List.cons_append, List.append_assoc]
  rfl

/-- Settles O59: the buffer holds the message's groups, and SXOR combines them as the CRYPTs do one by one. -/
theorem streamPathEqualsSymbolPath : Obligations.StreamPathEqualsSymbolPath := by
  intro s n k msg hpos hmax htap hfit hvalid
  obtain ⟨gs, rfl⟩ := exists_groups_of_valid hvalid
  rw [List.length_map] at hfit ⊢
  obtain ⟨d, hstream⟩ := execAll_load_stream hpos hmax htap hfit
  obtain ⟨d', hsymbols⟩ := execAll_load_crypt hpos hmax htap gs
  refine ⟨_, d, d', _, congrArg Prod.snd hstream, ?_, hsymbols⟩
  rw [hstream, List.append_cons, List.drop_left' (by simp)]

/-- Settles O60: the second LOAD makes the same generator, and combining twice with its keystream gives the groups back. -/
theorem decryptionGivesTheMessageBack : Obligations.DecryptionGivesTheMessageBack := by
  intro s n k msg hpos hmax htap hvalid
  obtain ⟨gs, rfl⟩ := exists_groups_of_valid hvalid
  obtain ⟨d, hencrypt⟩ := execAll_load_crypt hpos hmax htap gs
  obtain ⟨d', hdecrypt⟩ := execAll_load_crypt
    (s := { s with lfsr := (ksBits (6 * gs.length) (Lfsr.loaded s.seed n k)).2, dout := d }) hpos hmax htap
    (cryptGroups gs (Lfsr.loaded s.seed n k))
  rw [cryptGroups_cryptGroups] at hdecrypt
  exact ⟨_, _, _, hencrypt, hdecrypt, rfl, rfl⟩

end Sys2Proof.Machine
end

section
/-! PROOFS. The control commands NOP, CLRERR, SOFTRESET (44_control.md R94 to R96). -/

namespace Sys2Proof

theorem Instr.row_eq_softreset_iff (i : Instr) : i.row = .softreset ↔ i = .softreset := by
  cases i <;> simp [Instr.row]

end Sys2Proof

namespace Sys2Proof.Machine

/-! ## The issue of the control commands' words -/

/-- A word with a reserved bit does not decode, so under the error lock too it is no command of its row (R56, R100). -/
theorem reservedBit_issued {v : Word} (r : Row) (hopc : opcField v = r.opc)
    (hres : v.extractLsb' r.format.operandBits (24 - r.format.operandBits) ≠ 0#_) :
    RaisesIllegalCommand v ∧
      ∀ s : State, s.busy = false → s.error.err = true → hostWrite 2#10 v s = .next { s with busy := true } := by
  have hfield : reservedField r.format v ≠ 0 := fun h => hres (BitVec.eq_of_toNat_eq h)
  obtain ⟨e, hdec⟩ := (decode_error_reasons v).mpr (.inr (.inl ⟨r, hopc, hfield⟩))
  obtain ⟨-, -, hissued⟩ := illegalWordsAreThoseOfTheReservedSpace
  exact hissued v e hdec

/-- NOP only sets BUSY, as does any command the error lock stops, so its issue does not depend on ERR (R94, R100). -/
theorem hostWrite_nop {s : State} (hb : s.busy = false) : hostWrite 2#10 (encode .nop) s = .next (s.setBusy true) := by
  rw [hostWrite_cmd _ s hb, issue_of_ok s (decode_encode rfl)]
  exact ite_self _

/-- CLRERR and SOFTRESET run their rules whether an error is recorded or not (R42, R100). -/
theorem hostWrite_of_runsUnderLock {i : Instr} {s : State} (hlock : runsUnderLock i = true) (hw : i.wellFormed = true)
    (hb : s.busy = false) : hostWrite 2#10 (encode i) s = exec i (s.setBusy true) := by
  have hruns : ¬ (s.error.err && !runsUnderLock i) = true := by simp [hlock]
  rw [hostWrite_cmd _ s hb, issue_of_ok s (decode_encode hw), if_neg hruns]

/-! ## NOP (R94) and CLRERR (R95) -/

/-- Settles O23: the word, the illegal words, the rule, and the issue. -/
theorem nopSetsBusyAndNothingElse : Obligations.NopSetsBusyAndNothingElse :=
  ⟨rfl, fun _ => raisesIllegalCommand_of_reservedBit .nop, fun _ => rfl, fun _ => hostWrite_nop⟩

/-- Settles O24: the word, the illegal words with and without the lock, the rule, and its issue, which the lock does not stop. -/
theorem clrerrClearsTheRecordOnly : Obligations.ClrerrClearsTheRecordOnly :=
  ⟨rfl, fun _ => reservedBit_issued .clrerr, fun _ => rfl, fun _ => hostWrite_of_runsUnderLock (i := .clrerr) rfl rfl⟩

/-! ## SOFTRESET (R96) -/

/-- LOAD alone sets SEEDED: SOFTRESET clears it, and every other rule keeps it (R76, R77, R96). -/
theorem unseeded_of_exec {i : Instr} {s t : State} (hs : s.lfsr.seeded = false) (hload : i.row ≠ .load)
    (hexec : exec i s = .next t) : t.lfsr.seeded = false := by
  by_cases hsoft : i = .softreset
  · subst hsoft
    cases hexec
    rfl
  · have hrow : i.row ∉ [Row.softreset, .load] := by simp [Instr.row_eq_softreset_iff, hsoft, hload]
    obtain ⟨-, -, hkept⟩ := (exec_effect hexec).length_and_tap hrow
    exact hkept.trans hs

/-- Settles O25: the word, the illegal words with and without the lock, the rule and its issue, the SEEDED check of each keystream
command, and `unseeded_of_exec`. -/
theorem softresetReturnsEveryElement : Obligations.SoftresetReturnsEveryElement := by
  refine ⟨rfl, fun _ => reservedBit_issued .softreset, fun s => ⟨s.clear, rfl, rfl, hostWrite_softreset s, rfl⟩,
    fun s herr hs => ?_, fun s t i => unseeded_of_exec⟩
  have hraise (v : Word) : raise .notSeeded v s = .next (s.failed 9#4 v) := raise_of_no_err _ _ s herr
  exact ⟨(exec_step_of_unseeded hs).trans (hraise _), (exec_sxor_of_unseeded hs).trans (hraise _),
    fun w => (exec_gen_of_unseeded hs).trans (hraise _), fun c => (exec_crypt_of_unseeded hs).trans (hraise _)⟩

end Sys2Proof.Machine
end

section
/-! PROOFS. Errors (60_exceptions.md): the codes (R97), the record and the lock (R98, R100), precision (R99), and the order
of the checks (R101). -/

namespace Sys2Proof.Machine

/-! ## The error codes (R97) -/

theorem ErrorKind.code_le (e : ErrorKind) : e.code.toNat ≤ 11 := by
  cases e <;> decide

theorem ErrorKind.code_le_of_ne_cmdOverrun {e : ErrorKind} (he : e ≠ .cmdOverrun) : e.code.toNat ≤ 10 := by
  cases e with
  | cmdOverrun => exact absurd rfl he
  | _ => decide

/-! ## What can happen to the error record (R98, R100) -/

/-- What becomes of an error record r: it is kept, an error is recorded where none was, or, if `clears` holds, it is cleared. -/
inductive ErrorRecord.Change (clears : Prop) (r : ErrorRecord) : ErrorRecord → Prop where
  | kept : Change clears r r
  | recorded (h : r.err = false) (e : ErrorKind) (off : ByteOffset) (v : Word) :
      Change clears r { err := true, ecode := e.code, eoff := off, ecmd := v }
  | cleared (h : clears) : Change clears r .none

namespace ErrorRecord.Change

variable {p q : Prop} {r r' : ErrorRecord}

theorem imp (h : Change p r r') (hpq : p → q) : Change q r r' := by
  cases h with
  | kept => exact .kept
  | recorded h e off v => exact .recorded h e off v
  | cleared hp => exact .cleared (hpq hp)

/-- A recorded error stays or is cleared: no later error takes its place (R98). -/
theorem eq_or_of_err (h : Change p r r') (herr : r.err = true) : r' = r ∨ p := by
  cases h with
  | kept => exact .inl rfl
  | recorded h0 => cases h0.symm.trans herr
  | cleared hp => exact .inr hp

theorem ecode_le (h : Change p r r') (hr : r.ecode.toNat ≤ 11) : r'.ecode.toNat ≤ 11 := by
  cases h with
  | kept => exact hr
  | recorded _ e => exact e.code_le
  | cleared => decide

end ErrorRecord.Change

section
variable {s t : State}

theorem State.recordError_change (clears : Prop) (e : ErrorKind) (off : ByteOffset) (v : Word) :
    s.error.Change clears (s.recordError e off v).error := by
  cases herr : s.error.err with
  | true =>
    rw [s.recordError_of_err e off v herr]
    exact .kept
  | false =>
    rw [s.recordError_of_no_err e off v herr]
    exact .recorded herr e off v

/-- Of the rules, only those that run under the lock clear the record. -/
theorem ExecEffect.error_change {i : Instr} (h : ExecEffect i s t) : s.error.Change (runsUnderLock i = true) t.error := by
  cases h with
  | error e => exact State.recordError_change _ e _ _
  | clearError hi => exact .cleared ((runsUnderLock_iff i).mpr (.inl hi))
  | clear hi => exact .cleared ((runsUnderLock_iff i).mpr (.inr hi))
  | _ => exact .kept

/-- A word that decodes to a command that runs under the lock is the word of CLRERR or of SOFTRESET (R52, R100). -/
theorem eq_word_of_runsUnderLock {v : Word} {i : Instr} (hdec : decode v = .ok i) (hlock : runsUnderLock i = true) :
    v = 0x01000000#32 ∨ v = 0x02000000#32 := by
  obtain ⟨-, hword⟩ := decodedWordIsItsCommandsOnlyWord v i hdec
  exact ((runsUnderLock_iff i).mp hlock).imp (fun hi => (hi ▸ hword).symm) fun hi => (hi ▸ hword).symm

theorem issue_error_change {v : Word} (h : issue v s = .next t) :
    s.error.Change (v = 0x01000000#32 ∨ v = 0x02000000#32) t.error := by
  obtain ⟨_, -, -, h'⟩ | ⟨_, -, herr, h'⟩ | ⟨_, -, -, -, h'⟩ | ⟨i, hdec, -, h'⟩ := issue_cases v s
  · cases h.symm.trans h'
    exact .kept
  · cases h.symm.trans h'
    exact .recorded herr .illegalCommand cmdByteOffset v
  · cases h.symm.trans h'
    exact .kept
  · exact (exec_effect (h'.symm.trans h)).error_change.imp (eq_word_of_runsUnderLock hdec)

theorem writeReg_keeps_error {v : Word} {r : Reg} (hr : r ≠ .cmd) (h : writeReg v s r = .next t) : t.error = s.error := by
  cases r with
  | cmd => exact absurd rfl hr
  | _ => cases h; rfl

theorem hostRead_error (a : WordOffset) (s : State) : (hostRead a s).error = s.error := by
  have harch : (hostRead a s).arch.error = s.arch.error := congrArg State.error (hostRead_keeps a s).1
  exact harch

/-- The events that end the error lock: a write of CLRERR's or SOFTRESET's word to CMD, and a clock edge with rst = 1 (R100). -/
def Event.EndsLock (e : Event) : Prop :=
  e = .access (.write 2#10 0x01000000#32) ∨ e = .access (.write 2#10 0x02000000#32) ∨ ∃ p, e = .rst p

theorem hostWrite_error_change {a : WordOffset} {v : Word} (h : hostWrite a v s = .next t) :
    s.error.Change (a = 2#10 ∧ (v = 0x01000000#32 ∨ v = 0x02000000#32)) t.error := by
  cases hb : s.busy with
  | true =>
    cases (if_pos hb).symm.trans h
    exact State.recordError_change _ .cmdOverrun _ v
  | false =>
    by_cases ha : a = 2#10
    · subst ha
      exact (issue_error_change ((hostWrite_cmd v s hb).symm.trans h)).imp fun hv => ⟨rfl, hv⟩
    · have hreg : regAt s.params a ≠ .cmd :=
        mt (regAt_writable_iff s.params a).1.mp fun h2 => ha (BitVec.eq_of_toNat_eq h2)
      rw [writeReg_keeps_error hreg ((hostWrite_idle a v s hb).symm.trans h)]
      exact .kept

theorem runEvent_error_change {e : Event} (h : runEvent e s = .next t) : s.error.Change e.EndsLock t.error := by
  cases e with
  | access a =>
    cases a with
    | read a =>
      cases h
      rw [hostRead_error]
      exact .kept
    | write a v =>
      refine (hostWrite_error_change h).imp fun ⟨ha, hv⟩ => ?_
      subst ha
      obtain rfl | rfl := hv
      · exact .inl rfl
      · exact .inr (.inl rfl)
  | complete =>
    cases h
    exact .kept
  | rst p =>
    obtain ⟨x, n, hedge⟩ := resetEdge_eq p s
    cases (congrArg Host.Outcome.next hedge).symm.trans h
    exact .cleared (.inr (.inr ⟨p, rfl⟩))

theorem step_error_change (h : step s = .next t) :
    s.error.Change (∃ e rest, s.pending = e :: rest ∧ e.EndsLock) t.error := by
  obtain ⟨-, hdone⟩ | ⟨e, rest, hp, hevent⟩ := step_cases s
  · cases hdone.symm.trans h
    exact .kept
  · exact (runEvent_error_change (hevent.symm.trans h)).imp fun he => ⟨e, rest, hp, he⟩

end

/-- Settles O10: a step keeps the code, records one of the eleven kinds, or clears it. -/
theorem reportedErrorCodesStayBelow12 : Obligations.ReportedErrorCodesStayBelow12 :=
  ⟨fun _ => Nat.zero_le 11, fun _ _ hcode hstep => (step_error_change hstep).ecode_le hcode⟩

/-! ## The error lock (R100) -/

/-- Under the error lock the issue of any word but those of CLRERR and SOFTRESET only sets BUSY. -/
theorem hostWrite_locked {s : State} {v : Word} (hb : s.busy = false) (herr : s.error.err = true)
    (hclr : decode v ≠ .ok .clrerr) (hsoft : decode v ≠ .ok .softreset) : hostWrite 2#10 v s = .next (s.setBusy true) := by
  cases hdec : decode v with
  | error e => rw [hostWrite_illegal s hdec hb, if_pos herr]
  | ok i =>
    have hi : i ≠ .clrerr ∧ i ≠ .softreset :=
      ⟨fun h => hclr (hdec.trans (congrArg _ h)), fun h => hsoft (hdec.trans (congrArg _ h))⟩
    rw [hostWrite_cmd v s hb, issue_of_ok s hdec, if_pos ((lockStops_iff s.error i).mpr ⟨herr, hi⟩)]

/-- CLRERR and SOFTRESET clear the error record, under the lock or not (R95, R96). -/
theorem hostWrite_clears {s : State} {v : Word} (hb : s.busy = false) (hv : v = 0x01000000#32 ∨ v = 0x02000000#32) :
    ∃ t, hostWrite 2#10 v s = .next t ∧ t.error = ErrorRecord.none := by
  obtain rfl | rfl := hv
  · exact ⟨_, hostWrite_of_runsUnderLock (i := .clrerr) rfl rfl hb, rfl⟩
  · exact ⟨_, hostWrite_softreset s hb, rfl⟩

/-- Settles O14: the commands the lock stops, the writes it does not stop, the events that end it, and that each does. -/
theorem errorLockHoldsUntilCleared : Obligations.ErrorLockHoldsUntilCleared := by
  refine ⟨fun s v => hostWrite_locked, fun s v hb _ => ?_, fun s t herr hstep => ?_, fun s hb v => hostWrite_clears hb,
    fun s p => ?_⟩
  · have hidle (a : WordOffset) := hostWrite_idle a v s hb
    refine ⟨(hidle 8#10).trans (congrArg _ (regAt_low _ _ .din rfl)), (hidle 9#10).trans (congrArg _ (regAt_low _ _ .dinb rfl)),
      fun j hj => ?_⟩
    have hn := nmax_cases s.params
    have ha : (BitVec.ofNat 10 (64 + j)).toNat = 64 + j := Nat.mod_eq_of_lt (by omega)
    exact ⟨_, hostWrite_seedw _ v s hb hj ha, getWord_setWord _ _ _ (by omega)⟩
  · refine ((step_error_change hstep).eq_or_of_err herr).imp_right fun ⟨e, rest, hp, he⟩ => ?_
    obtain rfl | rfl | ⟨p, rfl⟩ := he
    · exact .inl ⟨rest, hp⟩
    · exact .inr (.inl ⟨rest, hp⟩)
    · exact .inr (.inr ⟨p, rest, hp⟩)
  · obtain ⟨x, n, hedge⟩ := resetEdge_eq p s
    exact ⟨_, congrArg Host.Outcome.next hedge, rfl⟩

/-! ## Errors are precise (R99) -/

/-- A rule after which an error stands that did not stand before has recorded it, and has done nothing else. -/
theorem ExecEffect.precise {i : Instr} {s t : State} (h : ExecEffect i s t) (hs : s.error.err = false) (ht : t.error.err = true) :
    ∃ e : ErrorKind, e ≠ .cmdOverrun ∧ t = s.failed e.code (encode i) := by
  cases h with
  | error e he => exact ⟨e, he, s.recordError_of_no_err e _ _ hs⟩
  | clearError => cases ht
  | clear => cases ht
  | _ => cases hs.symm.trans ht

/-- Settles O49: an illegal word fails with code 1, and a rule that fails is precise; the word it records is the one written. -/
theorem errorsArePrecise : Obligations.ErrorsArePrecise := by
  intro s t v hb herr hwrite hfailed
  have hprecise : ∃ e : ErrorKind, e ≠ .cmdOverrun ∧ t = (s.setBusy true).failed e.code v := by
    cases hdec : decode v with
    | error e =>
      cases (raisesIllegalCommand_of_error hdec s hb herr).symm.trans hwrite
      exact ⟨.illegalCommand, nofun, rfl⟩
    | ok i =>
      obtain ⟨-, rfl⟩ := decodedWordIsItsCommandsOnlyWord v i hdec
      have hissue := (hostWrite_cmd _ s hb).trans (issue_of_ok_of_no_err hdec herr)
      exact (exec_effect (hissue.symm.trans hwrite)).precise herr hfailed
  obtain ⟨e, he, ht⟩ := hprecise
  exact ⟨e.code, Nat.pos_of_ne_zero fun h0 => e.code_ne_zero (BitVec.eq_of_toNat_eq h0), e.code_le_of_ne_cmdOverrun he, ht⟩

/-! ## The first error that applies (R101) -/

/-- Under the error lock the record is kept by the issue of any word but two, legal or not. -/
theorem hostWrite_locked_of_ne {s : State} {v : Word} (hb : s.busy = false) (herr : s.error.err = true)
    (hclr : v ≠ 0x01000000#32) (hsoft : v ≠ 0x02000000#32) : hostWrite 2#10 v s = .next (s.setBusy true) := by
  have hstopped {i : Instr} (hlock : runsUnderLock i = true) : decode v ≠ .ok i := fun hdec =>
    (eq_word_of_runsUnderLock hdec hlock).elim hclr hsoft
  exact hostWrite_locked hb herr (hstopped rfl) (hstopped rfl)

/-- The issue of a command whose rule raises an error reports that error (R42, R98). -/
theorem hostWrite_of_raise {s : State} {i : Instr} {e : ErrorKind} (hb : s.busy = false) (herr : s.error.err = false)
    (h : exec i (s.setBusy true) = raise e (encode i) (s.setBusy true)) (hw : i.wellFormed = true) :
    hostWrite 2#10 (encode i) s = .next ((s.setBusy true).failed e.code (encode i)) := by
  rw [hostWrite_cmd _ s hb, issue_of_ok_of_no_err (decode_encode hw) herr, h]
  exact raise_of_no_err _ _ _ herr

theorem countOk_of_le {w : BitCount} (h : w.toNat ≤ 32) : countOk w = true := decide_eq_true h

/-- Settles O50: what BUSY, the lock and the decoder decide comes before any rule; then each rule's checks in their order. -/
theorem firstApplicableErrorIsReported : Obligations.FirstApplicableErrorIsReported := by
  refine ⟨fun s a v hb herr => ?_, fun s v hb herr hclr hsoft => ?_, fun s v e hb herr hdec => ?_, fun s hb herr => ?_⟩
  · refine ⟨_, hostWrite_busy a v s hb, ?_⟩
    rw [if_neg (by simp [herr])]
  · exact ⟨_, hostWrite_locked_of_ne hb herr hclr hsoft, rfl⟩
  · exact ⟨_, raisesIllegalCommand_of_error hdec s hb herr, rfl⟩
  · have hreports {i : Instr} {e : ErrorKind} := hostWrite_of_raise (i := i) (e := e) hb herr
    refine ⟨fun hs => ⟨hreports (exec_step_of_unseeded hs) rfl, hreports (exec_sxor_of_unseeded hs) rfl,
        fun w hw => hreports (exec_gen_of_unseeded hs) (countOk_of_le hw), fun c => hreports (exec_crypt_of_unseeded hs) rfl⟩,
      fun n k hn => hreports (exec_load_of_empty _ hn) rfl, fun n k hlong => hreports (exec_load_of_long _ hlong) rfl,
      fun n k hpos hmax htap => hreports (exec_load_of_tap _ hpos hmax htap) rfl,
      fun c hc => ⟨hreports (exec_s2b_of_none _ hc) rfl, hreports (exec_spush_of_none _ hc) rfl,
        fun hs => hreports (exec_crypt_of_none hs hc) rfl⟩,
      fun w hw hdin => ?_, fun la lb hla hlb hne => ?_, fun c g hc hfull => hreports (exec_spush_of_full _ hc hfull) rfl,
      fun w hw hfits hfull => ?_, fun hshort => hreports (exec_spop_of_short _ hshort) rfl,
      fun w hw hshort => hreports (exec_bpop_of_short _ hshort) (countOk_of_le hw),
      fun hpartial => hreports (exec_schk_of_partial _ hpartial) rfl⟩
    · have hover := (overflows_iff w s.din).mpr ⟨hw, hdin⟩
      have hcount := countOk_of_le hw.le
      exact ⟨hreports (exec_i2b_of_overflow _ hover) hcount, hreports (exec_bpush_of_overflow _ hover) hcount⟩
    · have hcounts : (Instr.xor la lb).wellFormed = true := Bool.and_eq_true_iff.mpr ⟨countOk_of_le hla, countOk_of_le hlb⟩
      exact hreports (exec_xor_of_ne _ hne) hcounts
    · exact hreports (exec_bpush_of_full _ (not_overflows_of_fits hfits) hfull) (countOk_of_le hw)

end Sys2Proof.Machine
end

section
/-! PROOFS. Reset and hazards (70_reset_and_hazards.md): the rst edge (R107), BUSY and the completion step (R109), reads while BUSY = 1
(R110), a message in chunks (R115), and the end of a run (R118). -/

namespace Sys2Proof.Machine

/-! ## The end of a run (R109, R118) -/

theorem WriteEffect.pending_eq {s t : State} (h : WriteEffect s t) : t.pending = s.pending := by
  cases h with
  | command i heffect =>
    obtain ⟨-, -, hpending, -, -⟩ := heffect.own_fields
    exact hpending
  | _ => rfl

/-- No event adds or removes one that is still to come. -/
theorem EventEffect.pending_eq {s t : State} (h : EventEffect s t) : t.pending = s.pending := by
  cases h with
  | dropped a v => exact s.recordError_pending .cmdOverrun (byteOffset a) v
  | write _ hwrite => exact hwrite.pending_eq
  | _ => rfl

theorem step_of_no_event {s : State} (hp : s.pending = []) : step s = .next (s.setBusy false) := by
  rw [step, nextEvent, hp]
  rfl

/-- Each step takes one event, and the completion step ends the run when none is left. -/
theorem exists_run_runEnded (s : State) : ∃ t, Host.Core.run core (s.pending.length + 1) s = .next t ∧ t.runEnded := by
  generalize hp : s.pending = events
  induction events generalizing s with
  | nil => exact ⟨s.setBusy false, run_of_step (step_of_no_event hp) 0, hp, rfl⟩
  | cons e rest ih =>
    obtain ⟨u, hevent, heffect⟩ := runEvent_cases e { s with pending := rest }
    obtain ⟨t, hrun, hended⟩ := ih u heffect.pending_eq
    exact ⟨t, (run_of_step (step_of_event hp hevent) _).trans hrun, hended⟩

/-- The completion step has nothing to clear once the run has ended (R118). -/
theorem step_of_runEnded {s : State} (h : s.runEnded) : step s = .next s := by
  obtain ⟨hp, hb⟩ := h
  have hsame : s.setBusy false = s := by rw [← hb]; rfl
  rw [step_of_no_event hp, hsame]

theorem run_of_runEnded {s : State} (h : s.runEnded) (n : Nat) : Host.Core.run core n s = .next s := by
  induction n with
  | zero => rfl
  | succ n ih => exact (run_of_step (step_of_runEnded h) n).trans ih

/-- Settles O12: a run takes its events one by one and then the completion step, and an ended run's steps change nothing. -/
theorem everyRunEndsAfterItsEvents : Obligations.EveryRunEndsAfterItsEvents :=
  ⟨exists_run_runEnded, fun _ n h => run_of_runEnded h n⟩

/-! ## A message in chunks (R115) -/

/-- Settles O48: the keystream bits of the joined buffer are those of the first chunk and then those of the second. -/
theorem sxorInChunksEqualsOneShot : Obligations.SxorInChunksEqualsOneShot := by
  intro s a b hs
  have hnext : (ksBits a.length s.lfsr).2.seeded = true := (ksBits_seeded _ _).trans hs
  refine ⟨_, _, _, _, exec_sxor_of_seeded (by exact hs), exec_sxor_of_seeded (by exact hnext),
    (exec_sxor_of_seeded (by exact hs)).trans ?_⟩
  simp only [List.length_append, ksBits_add, xorSeq_append a b _ _ (ksBits_length _ _).symm]

/-! ## The reset edge (R107) -/

/-- Settles O7: a rst edge clears every state element and BUSY; only a read presented with it leaves a trace, in the model's own
fields. -/
theorem resetEdgeOverridesEverything : Obligations.ResetEdgeOverridesEverything := fun s =>
  ⟨s.clear.setBusy false, s.clear_atReset false s.pending s.reads s.draws, rfl, rfl, rfl, rfl, rfl, rfl, fun _ _ => rfl,
    fun _ => rfl⟩

/-! ## Reads while BUSY = 1 (R110) -/

/-- A read while BUSY = 1 is recorded with the word R110 gives for the register its offset names, and takes one free value. -/
theorem runEvent_read_busy {s : State} (hb : s.busy = true) (a : WordOffset) :
    runEvent (.access (.read a)) s = .next { s with
      reads := s.reads ++ [busyRead (Config.freeRead s.draws) s (regAt s.params a)], draws := s.draws + 1 } := by
  rw [runEvent, hostRead, if_pos hb]
  rfl

/-- The bits of STATUS while BUSY = 1 but for bit 0: [31:4] are 0 and [3:1] free. -/
theorem busyRead_status_fields (free : Word) (s : State) :
    (busyRead free s .status).extractLsb' 4 28 = 0#28 ∧ (busyRead free s .status).extractLsb' 1 3 = free.extractLsb' 1 3 := by
  rw [busyRead]
  generalize free.extractLsb' 1 3 = bits
  revert bits
  decide

section
variable (free : Word) (s : State) {a : WordOffset}

/-- The registers from ERRCODE to BSCOUNT read as the free value. -/
theorem busyRead_regAt_low (hlow : 4 ≤ a.toNat) (hhigh : a.toNat < 12) : busyRead free s (regAt s.params a) = free := by
  rw [regAt]
  generalize windowReg s.params a.toNat = r
  generalize a.toNat = n at hlow hhigh
  interval_cases n <;> rfl

/-- The words of SEEDW read as the free value. -/
theorem busyRead_regAt_seedw (hlow : 64 ≤ a.toNat) (hhigh : a.toNat < 64 + s.params.nmax / 32) :
    busyRead free s (regAt s.params a) = free := by
  rw [regAt_seedw s.params a (a.toNat - 64) (by omega) (by omega)]
  rfl

/-- The words of STATEW read as the free value. -/
theorem busyRead_regAt_statew (hlow : 128 ≤ a.toNat) (hhigh : a.toNat < 128 + s.params.nmax / 32) :
    busyRead free s (regAt s.params a) = free := by
  rw [regAt_statew s.params a (a.toNat - 128) (by omega) (by omega)]
  rfl

end

/-- Settles O19: each offset names its register, and R110 says what a read of it answers. -/
theorem readsWhileBusyReturnOpenValues : Obligations.ReadsWhileBusyReturnOpenValues := by
  refine ⟨fun s a hb => ⟨_, runEvent_read_busy hb a, fun ha => ?_, fun ha => ?_, fun ha => ?_, fun ha => ?_, fun ha => ?_⟩,
    fun _ => rfl⟩
  · obtain rfl : a = 0#10 := by bv_omega
    rw [regAt_low s.params _ .id rfl]
    rfl
  · obtain rfl : a = 1#10 := by bv_omega
    rw [regAt_low s.params _ .cfg rfl]
    exact cfgWord_fields s.params
  · obtain ha | hreserved := ha
    · rw [(regAt_writable_iff s.params a).1.mpr (by omega)]
      rfl
    · rw [regAt_reserved s.params a hreserved]
      rfl
  · obtain rfl : a = 3#10 := by bv_omega
    rw [regAt_low s.params _ .status rfl]
    exact ⟨getLsbD_zero_busyRead_status _ s, busyRead_status_fields _ s⟩
  · have hn := nmax_cases s.params
    obtain ⟨hlow, hhigh⟩ | ⟨hlow, hhigh⟩ | ⟨hlow, hhigh⟩ := ha
    · exact busyRead_regAt_low _ s (by omega) (by omega)
    · exact busyRead_regAt_seedw _ s (by omega) (by omega)
    · exact busyRead_regAt_statew _ s (by omega) (by omega)

/-! ## BUSY and the completion step (R109) -/

/-- Every issue sets BUSY: no command's rule touches it (R42). -/
theorem busy_of_issue {s t : State} {v : Word} (h : issue v s = .next t) : t.busy = true := by
  obtain ⟨_, -, -, h'⟩ | ⟨_, -, -, h'⟩ | ⟨_, -, -, -, h'⟩ | ⟨i, -, -, h'⟩ := issue_cases v s
  · cases h.symm.trans h'
    rfl
  · cases h.symm.trans h'
    rfl
  · cases h.symm.trans h'
    rfl
  · obtain ⟨-, hbusy, -, -, -⟩ := (exec_effect (h'.symm.trans h)).own_fields
    exact hbusy

/-- A read, and a write dropped because BUSY = 1, leave BUSY as it is. -/
theorem busy_of_access {s t : State} {a : Access} (hb : s.busy = true) (h : runEvent (.access a) s = .next t) :
    t.busy = true := by
  cases a with
  | read a =>
    cases (runEvent_read_busy hb a).symm.trans h
    exact hb
  | write a v =>
    cases (if_pos hb).symm.trans h
    exact (s.recordError_busy .cmdOverrun (byteOffset a) v).trans hb

/-- Settles O20: an issue sets BUSY, accesses leave it, and the completion step, be it an event or not, clears it. -/
theorem completionStepClearsBusyOnly : Obligations.CompletionStepClearsBusyOnly :=
  ⟨fun s _ v hb h => busy_of_issue ((hostWrite_cmd v s hb).symm.trans h), fun _ _ => step_complete, fun _ _ _ => busy_of_access,
    fun _ => step_of_no_event⟩

end Sys2Proof.Machine
end
